-- ==== Sys2Proof/Word.lean ====
section
/-! DEFINITION. The word types of the core: bytes, octet sequences and bit sequences (00_scope.md section 5.1). -/

namespace Sys2Proof

/-- `Byte` and `Char`: an 8-bit unsigned value (00_scope.md R7, 20_memory.md R40). -/
abbrev Byte := BitVec 8

/-- `Bytes`, `Str` and `Syms`: a finite octet sequence, indexed from 0 (30_encoding.md R68). -/
abbrev Octets := List Byte

/-- `Bits`: a finite sequence of bits in stream order (00_scope.md section 5.1). -/
abbrev Bits := List Bool

end Sys2Proof
end

