-- ==== Sys2Proof/Config.lean ====
section
/-! DEFINITION. What an implementation fixes (00_scope.md R4).
The values that a test could show wrong (default alphabets, the choice for the empty string) stand in
Machine/Parameters.lean. The spec gives no behaviour the treatment "any value" (93_implementation_defined.md part 1),
so there is no free value here. -/

namespace Sys2Proof.Config

/-- The slot field of a header has 4 bits, so a slot number is less than 16 (30_encoding.md, header table). -/
def slotFieldSize : Nat := 16

/-- `NR` of the machine that `State.reset` describes. The spec leaves `NR` open in 1..16 (00_scope.md R4, D7).
DESIGN CHOICE (log entry 4): 16. Unsafe only for a claim about `State.reset` alone. -/
def readerSlots : Nat := 16

/-- `NW` of the machine that `State.reset` describes. DESIGN CHOICE (log entry 4), as `readerSlots`. -/
def writerSlots : Nat := 16

/-- `NC` of the machine that `State.reset` describes. DESIGN CHOICE (log entry 4), as `readerSlots`. -/
def codecSlots : Nat := 16

/-- The two readings of `padBits` on the empty string (00_scope.md R4, parameter `PADBITS_EMPTY`). -/
inductive PadBitsEmpty where
  | padToN
  | unchanged
  deriving DecidableEq, Repr

end Sys2Proof.Config
end

