-- ==== Sys2Proof/Syntax.lean ====
section
/-! DEFINITION. The command packet (30_encoding.md R60) and the 28 commands (30_encoding.md R63). -/

namespace Sys2Proof

/-- A command packet: a 32-bit header, up to three integers `A`, `B`, `C`, up to two payloads `P0`, `P1`
(30_encoding.md R60). Integers are mathematical integers (R67), payload elements are octets (R68). -/
structure Packet where
  header   : BitVec 32
  operands : List Int
  payloads : List Octets
  deriving DecidableEq, Repr

/-- Which of the two codecs (10_state.md R25); flag `B` of a header selects it (30_encoding.md R65). -/
inductive Base where
  | base32
  | base64
  deriving DecidableEq, Repr

/-- The 28 commands, one constructor for each row of the opcode map (30_encoding.md R63). -/
inductive Instr where
  -- unit 0, BitOps
  | maskbits  (byte i0 i1 : Int)
  | padbits   (bitString : Octets) (n : Int)
  | byte2bits (byte n : Int) (prefixed : Bool)
  | getbit    (bytes : Octets) (i : Int)
  -- unit 1, BitReader
  | rdNew   (slot : Nat) (truncate : Bool) (bytes : Octets)
  | rdEof   (slot : Nat)
  | rdBits  (slot : Nat) (n : Int)
  | rdAlign (slot : Nat) (force : Bool)
  | rdByte  (slot : Nat)
  -- unit 2, BitWriter
  | wrNew  (slot : Nat)
  | wrLen  (slot : Nat)
  | wrBits (slot : Nat) (bitString : Octets)
  | wrByte (slot : Nat) (byte : Int)
  | wrPad  (slot : Nat) (force : Bool)
  | wrPop  (slot : Nat) (n : Int)
  | wrFin  (slot : Nat) (force : Bool)
  -- unit 3, Base-N codec
  | cdNew    (slot : Nat) (base : Base) (strict : Bool) (alphabet : Octets) (pad : Option Octets)
  | cdEncraw (slot : Nat) (bytes : Octets)
  | cdEnc    (slot : Nat) (bytes : Octets)
  | cdDecraw (slot : Nat) (encoded : Octets)
  | cdDec    (slot : Nat) (encoded : Octets)
  | cdValid  (slot : Nat) (encoded : Octets)
  -- unit 3, the default codecs
  | enc32   (bytes : Octets)
  | dec32   (encoded : Octets)
  | valid32 (encoded : Octets)
  | enc64   (bytes : Octets)
  | dec64   (encoded : Octets)
  | valid64 (encoded : Octets)
  deriving DecidableEq, Repr

/-- The three arrays of slots (10_state.md R20). -/
inductive SlotArray where
  | rd
  | wr
  | cd
  deriving DecidableEq, Repr

/-- The slot a command names, if it works on an instance (30_encoding.md R63, R64). -/
def Instr.slotRef : Instr → Option (SlotArray × Nat)
  | .maskbits _ _ _ => none
  | .padbits _ _ => none
  | .byte2bits _ _ _ => none
  | .getbit _ _ => none
  | .rdNew slot _ _ => some (.rd, slot)
  | .rdEof slot => some (.rd, slot)
  | .rdBits slot _ => some (.rd, slot)
  | .rdAlign slot _ => some (.rd, slot)
  | .rdByte slot => some (.rd, slot)
  | .wrNew slot => some (.wr, slot)
  | .wrLen slot => some (.wr, slot)
  | .wrBits slot _ => some (.wr, slot)
  | .wrByte slot _ => some (.wr, slot)
  | .wrPad slot _ => some (.wr, slot)
  | .wrPop slot _ => some (.wr, slot)
  | .wrFin slot _ => some (.wr, slot)
  | .cdNew slot _ _ _ _ => some (.cd, slot)
  | .cdEncraw slot _ => some (.cd, slot)
  | .cdEnc slot _ => some (.cd, slot)
  | .cdDecraw slot _ => some (.cd, slot)
  | .cdDec slot _ => some (.cd, slot)
  | .cdValid slot _ => some (.cd, slot)
  | .enc32 _ => none
  | .dec32 _ => none
  | .valid32 _ => none
  | .enc64 _ => none
  | .dec64 _ => none
  | .valid64 _ => none

/-- The three commands that construct an instance (60_exceptions.md R206). -/
def Instr.isConstructor : Instr → Bool
  | .rdNew _ _ _ => true
  | .wrNew _ => true
  | .cdNew _ _ _ _ _ => true
  | .maskbits _ _ _ | .padbits _ _ | .byte2bits _ _ _ | .getbit _ _
  | .rdEof _ | .rdBits _ _ | .rdAlign _ _ | .rdByte _
  | .wrLen _ | .wrBits _ _ | .wrByte _ _ | .wrPad _ _ | .wrPop _ _ | .wrFin _ _
  | .cdEncraw _ _ | .cdEnc _ _ | .cdDecraw _ _ | .cdDec _ _ | .cdValid _ _
  | .enc32 _ | .dec32 _ | .valid32 _ | .enc64 _ | .dec64 _ | .valid64 _ => false

/-- The result column of the opcode map (30_encoding.md R63): what an OK response of the command carries. -/
inductive ResultKind where
  | nothing
  /-- a natural number -/
  | value
  /-- the value 0 or 1 -/
  | bool
  /-- a character string -/
  | str
  /-- a byte array -/
  | bytes
  /-- raw symbols, one octet each -/
  | syms
  deriving DecidableEq, Repr

/-- The kind of result of each command (30_encoding.md R63). -/
def Instr.resultKind : Instr → ResultKind
  | .maskbits _ _ _ => .value
  | .padbits _ _ => .str
  | .byte2bits _ _ _ => .str
  | .getbit _ _ => .bool
  | .rdNew _ _ _ => .nothing
  | .rdEof _ => .bool
  | .rdBits _ _ => .value
  | .rdAlign _ _ => .nothing
  | .rdByte _ => .value
  | .wrNew _ => .nothing
  | .wrLen _ => .value
  | .wrBits _ _ => .nothing
  | .wrByte _ _ => .nothing
  | .wrPad _ _ => .nothing
  | .wrPop _ _ => .str
  | .wrFin _ _ => .bytes
  | .cdNew _ _ _ _ _ => .nothing
  | .cdEncraw _ _ => .syms
  | .cdEnc _ _ => .str
  | .cdDecraw _ _ => .syms
  | .cdDec _ _ => .bytes
  | .cdValid _ _ => .bool
  | .enc32 _ => .str
  | .dec32 _ => .bytes
  | .valid32 _ => .bool
  | .enc64 _ => .str
  | .dec64 _ => .bytes
  | .valid64 _ => .bool

end Sys2Proof
end

