-- ==== Sys2Proof/WellFormed.lean ====
section
/-! DEFINITION. When a command can be written as a packet: its slot number fits the header's 4-bit field
(30_encoding.md R61, R64). Every other argument fits as it is: operands are unbounded integers (R67), payloads are
octet sequences of any length (R68), flags are one bit (R65). Whether the machine HAS the slot (R64, `NR`, `NW`, `NC`)
is not a matter of form: the command then runs and is answered `IllegalCommand`. -/

namespace Sys2Proof

/-- The slot number, where there is one, fits the 4-bit field. -/
def Instr.wellFormed (i : Instr) : Bool :=
  match i.slotRef with
  | none => true
  | some (_, slot) => decide (slot < Config.slotFieldSize)

/-- The check as a proposition; it is decidable because it is an equation of Booleans. -/
abbrev Instr.WellFormed (i : Instr) : Prop := i.wellFormed = true

end Sys2Proof
end

