-- ==== Sys2Proof/Decode.lean ====
section
/-! DEFINITION. The decoder, total on any packet and rejecting by name (30_encoding.md R61 to R74), the encoder written
from the same tables, and the machine-readable opcode table as mask and match words (R80). -/

namespace Sys2Proof

/-! ## The header word (30_encoding.md section 2) -/

namespace Header

/-- `H[31:28]` (R62). -/
def unit (h : BitVec 32) : Nat := (h.extractLsb' 28 4).toNat

/-- `H[27:24]`. -/
def func (h : BitVec 32) : Nat := (h.extractLsb' 24 4).toNat

/-- `H[23:20]` (R64). -/
def slot (h : BitVec 32) : Nat := (h.extractLsb' 20 4).toNat

/-- `H[19]`, reserved. -/
def reservedHigh (h : BitVec 32) : Bool := h.getLsbD 19

/-- `H[18]`, the base select (R65). -/
def flagB (h : BitVec 32) : Bool := h.getLsbD 18

/-- `H[17]`, a pad character is supplied (R65). -/
def flagP (h : BitVec 32) : Bool := h.getLsbD 17

/-- `H[16]`, the command's one Boolean argument (R65). -/
def flagF (h : BitVec 32) : Bool := h.getLsbD 16

/-- `H[15:0]`, reserved. -/
def reservedLow (h : BitVec 32) : Nat := (h.extractLsb' 0 16).toNat

end Header

/-- The rows of the opcode map, without their arguments (30_encoding.md R63). -/
inductive Opcode where
  | maskbits | padbits | byte2bits | getbit
  | rdNew | rdEof | rdBits | rdAlign | rdByte
  | wrNew | wrLen | wrBits | wrByte | wrPad | wrPop | wrFin
  | cdNew | cdEncraw | cdEnc | cdDecraw | cdDec | cdValid
  | enc32 | dec32 | valid32 | enc64 | dec64 | valid64
  deriving DecidableEq, Repr

/-- Why a packet is illegal (30_encoding.md R72 (a) and (c)). Each is answered with the status `IllegalCommand`; the
name is the model's own record of the cause and no command sees it. -/
inductive Illegal where
  /-- `unit ≥ 4` -/
  | reservedUnit
  /-- `func` is not listed for the unit -/
  | reservedFunction
  /-- `H[19]` or one of `H[15:0]` is 1 -/
  | reservedBit
  /-- a flag bit the command does not use is 1 -/
  | unusedFlag
  /-- `slot ≠ 0` in a command that uses no instance -/
  | slotNotZero
  /-- the number of operand words differs from the row's -/
  | operandCount
  /-- the number of payloads differs from the row's -/
  | payloadCount
  deriving DecidableEq, Repr

namespace Opcode

/-- Unit and function numbers, with `B` selecting between the default codecs (30_encoding.md R62, R63, R72 (a)). -/
def ofFields (unit func : Nat) (b : Bool) : Except Illegal Opcode :=
  match unit, func with
  | 0, 0 => .ok .maskbits
  | 0, 1 => .ok .padbits
  | 0, 2 => .ok .byte2bits
  | 0, 3 => .ok .getbit
  | 1, 0 => .ok .rdNew
  | 1, 1 => .ok .rdEof
  | 1, 2 => .ok .rdBits
  | 1, 3 => .ok .rdAlign
  | 1, 4 => .ok .rdByte
  | 2, 0 => .ok .wrNew
  | 2, 1 => .ok .wrLen
  | 2, 2 => .ok .wrBits
  | 2, 3 => .ok .wrByte
  | 2, 4 => .ok .wrPad
  | 2, 5 => .ok .wrPop
  | 2, 6 => .ok .wrFin
  | 3, 0 => .ok .cdNew
  | 3, 1 => .ok .cdEncraw
  | 3, 2 => .ok .cdEnc
  | 3, 3 => .ok .cdDecraw
  | 3, 4 => .ok .cdDec
  | 3, 5 => .ok .cdValid
  | 3, 8 => .ok (if b then .enc64 else .enc32)
  | 3, 9 => .ok (if b then .dec64 else .dec32)
  | 3, 10 => .ok (if b then .valid64 else .valid32)
  | u, _ => .error (if 4 ≤ u then .reservedUnit else .reservedFunction)

/-- The command works on an instance slot (30_encoding.md R63, R64). -/
def usesSlot : Opcode → Bool
  | .maskbits | .padbits | .byte2bits | .getbit => false
  | .rdNew | .rdEof | .rdBits | .rdAlign | .rdByte => true
  | .wrNew | .wrLen | .wrBits | .wrByte | .wrPad | .wrPop | .wrFin => true
  | .cdNew | .cdEncraw | .cdEnc | .cdDecraw | .cdDec | .cdValid => true
  | .enc32 | .dec32 | .valid32 | .enc64 | .dec64 | .valid64 => false

/-- The command uses flag `F` (30_encoding.md R65). -/
def usesF : Opcode → Bool
  | .byte2bits | .rdNew | .rdAlign | .wrPad | .wrFin | .cdNew => true
  | .maskbits | .padbits | .getbit | .rdEof | .rdBits | .rdByte => false
  | .wrNew | .wrLen | .wrBits | .wrByte | .wrPop => false
  | .cdEncraw | .cdEnc | .cdDecraw | .cdDec | .cdValid => false
  | .enc32 | .dec32 | .valid32 | .enc64 | .dec64 | .valid64 => false

/-- The command uses flag `P` (30_encoding.md R65: `CD.NEW` only). -/
def usesP (op : Opcode) : Bool := op == .cdNew

/-- The command uses flag `B`: `CD.NEW` and the opcodes 0x38 to 0x3A (30_encoding.md R65). -/
def usesB : Opcode → Bool
  | .cdNew | .enc32 | .dec32 | .valid32 | .enc64 | .dec64 | .valid64 => true
  | .maskbits | .padbits | .byte2bits | .getbit => false
  | .rdNew | .rdEof | .rdBits | .rdAlign | .rdByte => false
  | .wrNew | .wrLen | .wrBits | .wrByte | .wrPad | .wrPop | .wrFin => false
  | .cdEncraw | .cdEnc | .cdDecraw | .cdDec | .cdValid => false

/-- How many operand words a packet of the row has (30_encoding.md R63, R67). -/
def operandCount : Opcode → Nat
  | .maskbits => 3
  | .byte2bits => 2
  | .padbits | .getbit | .rdBits | .wrByte | .wrPop => 1
  | .rdNew | .rdEof | .rdAlign | .rdByte => 0
  | .wrNew | .wrLen | .wrBits | .wrPad | .wrFin => 0
  | .cdNew | .cdEncraw | .cdEnc | .cdDecraw | .cdDec | .cdValid => 0
  | .enc32 | .dec32 | .valid32 | .enc64 | .dec64 | .valid64 => 0

/-- How many payloads a packet of the row has; for `CD.NEW` it depends on flag `P` (30_encoding.md R63, R68, R74). -/
def payloadCount (op : Opcode) (p : Bool) : Nat :=
  match op with
  | .cdNew => if p then 2 else 1
  | .padbits | .getbit | .rdNew | .wrBits => 1
  | .cdEncraw | .cdEnc | .cdDecraw | .cdDec | .cdValid => 1
  | .enc32 | .dec32 | .valid32 | .enc64 | .dec64 | .valid64 => 1
  | .maskbits | .byte2bits | .rdEof | .rdBits | .rdAlign | .rdByte => 0
  | .wrNew | .wrLen | .wrByte | .wrPad | .wrPop | .wrFin => 0

end Opcode

/-- What a header selects: its row, or the reason it selects none (30_encoding.md R61 to R65, R72 (a)). -/
def decodeOpcode (h : BitVec 32) : Except Illegal Opcode :=
  match Opcode.ofFields (Header.unit h) (Header.func h) (Header.flagB h) with
  | .error e => .error e
  | .ok op =>
    if Header.reservedHigh h = true ∨ Header.reservedLow h ≠ 0 then .error .reservedBit
    else if (Header.flagF h = true ∧ op.usesF = false) ∨ (Header.flagP h = true ∧ op.usesP = false)
        ∨ (Header.flagB h = true ∧ op.usesB = false) then .error .unusedFlag
    else if Header.slot h ≠ 0 ∧ op.usesSlot = false then .error .slotNotZero
    else .ok op

/-- The base that flag `B` selects (30_encoding.md R65). -/
def Base.ofFlag (b : Bool) : Base := if b then .base64 else .base32

/-- The command of a row with the arguments a packet carries, where their numbers fit (30_encoding.md R63). -/
def Opcode.assemble (op : Opcode) (slot : Nat) (f p b : Bool) (operands : List Int) (payloads : List Octets) :
    Option Instr :=
  match op with
  | .maskbits => match operands, payloads with
    | [byte, i0, i1], [] => some (.maskbits byte i0 i1)
    | _, _ => none
  | .padbits => match operands, payloads with
    | [n], [bitString] => some (.padbits bitString n)
    | _, _ => none
  | .byte2bits => match operands, payloads with
    | [byte, n], [] => some (.byte2bits byte n f)
    | _, _ => none
  | .getbit => match operands, payloads with
    | [i], [bytes] => some (.getbit bytes i)
    | _, _ => none
  | .rdNew => match operands, payloads with
    | [], [bytes] => some (.rdNew slot f bytes)
    | _, _ => none
  | .rdEof => match operands, payloads with
    | [], [] => some (.rdEof slot)
    | _, _ => none
  | .rdBits => match operands, payloads with
    | [n], [] => some (.rdBits slot n)
    | _, _ => none
  | .rdAlign => match operands, payloads with
    | [], [] => some (.rdAlign slot f)
    | _, _ => none
  | .rdByte => match operands, payloads with
    | [], [] => some (.rdByte slot)
    | _, _ => none
  | .wrNew => match operands, payloads with
    | [], [] => some (.wrNew slot)
    | _, _ => none
  | .wrLen => match operands, payloads with
    | [], [] => some (.wrLen slot)
    | _, _ => none
  | .wrBits => match operands, payloads with
    | [], [bitString] => some (.wrBits slot bitString)
    | _, _ => none
  | .wrByte => match operands, payloads with
    | [byte], [] => some (.wrByte slot byte)
    | _, _ => none
  | .wrPad => match operands, payloads with
    | [], [] => some (.wrPad slot f)
    | _, _ => none
  | .wrPop => match operands, payloads with
    | [n], [] => some (.wrPop slot n)
    | _, _ => none
  | .wrFin => match operands, payloads with
    | [], [] => some (.wrFin slot f)
    | _, _ => none
  | .cdNew => match operands, payloads, p with
    | [], [alphabet], false => some (.cdNew slot (Base.ofFlag b) f alphabet none)
    | [], [alphabet, pad], true => some (.cdNew slot (Base.ofFlag b) f alphabet (some pad))
    | _, _, _ => none
  | .cdEncraw => match operands, payloads with
    | [], [bytes] => some (.cdEncraw slot bytes)
    | _, _ => none
  | .cdEnc => match operands, payloads with
    | [], [bytes] => some (.cdEnc slot bytes)
    | _, _ => none
  | .cdDecraw => match operands, payloads with
    | [], [encoded] => some (.cdDecraw slot encoded)
    | _, _ => none
  | .cdDec => match operands, payloads with
    | [], [encoded] => some (.cdDec slot encoded)
    | _, _ => none
  | .cdValid => match operands, payloads with
    | [], [encoded] => some (.cdValid slot encoded)
    | _, _ => none
  | .enc32 => match operands, payloads with
    | [], [bytes] => some (.enc32 bytes)
    | _, _ => none
  | .dec32 => match operands, payloads with
    | [], [encoded] => some (.dec32 encoded)
    | _, _ => none
  | .valid32 => match operands, payloads with
    | [], [encoded] => some (.valid32 encoded)
    | _, _ => none
  | .enc64 => match operands, payloads with
    | [], [bytes] => some (.enc64 bytes)
    | _, _ => none
  | .dec64 => match operands, payloads with
    | [], [encoded] => some (.dec64 encoded)
    | _, _ => none
  | .valid64 => match operands, payloads with
    | [], [encoded] => some (.valid64 encoded)
    | _, _ => none

/-- The command of a packet, or the reason it is illegal (30_encoding.md R72 (a) and (c)); R72 (b), a slot number the
machine does not have, is checked where the slot is looked up (Machine/Ops.lean). -/
def decode (pk : Packet) : Except Illegal Instr :=
  match decodeOpcode pk.header with
  | .error e => .error e
  | .ok op =>
    match op.assemble (Header.slot pk.header) (Header.flagF pk.header) (Header.flagP pk.header)
        (Header.flagB pk.header) pk.operands pk.payloads with
    | some i => .ok i
    | none => .error (if pk.operands.length ≠ op.operandCount then .operandCount else .payloadCount)

/-! ## The encoder -/

/-- `unit·16 + func` (30_encoding.md R61, R63). -/
def Opcode.number : Opcode → Nat
  | .maskbits => 0x00
  | .padbits => 0x01
  | .byte2bits => 0x02
  | .getbit => 0x03
  | .rdNew => 0x10
  | .rdEof => 0x11
  | .rdBits => 0x12
  | .rdAlign => 0x13
  | .rdByte => 0x14
  | .wrNew => 0x20
  | .wrLen => 0x21
  | .wrBits => 0x22
  | .wrByte => 0x23
  | .wrPad => 0x24
  | .wrPop => 0x25
  | .wrFin => 0x26
  | .cdNew => 0x30
  | .cdEncraw => 0x31
  | .cdEnc => 0x32
  | .cdDecraw => 0x33
  | .cdDec => 0x34
  | .cdValid => 0x35
  | .enc32 => 0x38
  | .dec32 => 0x39
  | .valid32 => 0x3A
  | .enc64 => 0x38
  | .dec64 => 0x39
  | .valid64 => 0x3A

/-- The header word of its fields, reserved bits 0 (30_encoding.md R61). -/
def encodeHeader (op : Opcode) (slot : Nat) (f p b : Bool) : BitVec 32 :=
  BitVec.ofNat 32 (op.number * 2 ^ 24 + slot * 2 ^ 20 + b.toNat * 2 ^ 18 + p.toNat * 2 ^ 17 + f.toNat * 2 ^ 16)

/-- The packet of a command (30_encoding.md R60, R63, R65). -/
def encode : Instr → Packet
  | .maskbits byte i0 i1 => ⟨encodeHeader .maskbits 0 false false false, [byte, i0, i1], []⟩
  | .padbits bitString n => ⟨encodeHeader .padbits 0 false false false, [n], [bitString]⟩
  | .byte2bits byte n prefixed => ⟨encodeHeader .byte2bits 0 prefixed false false, [byte, n], []⟩
  | .getbit bytes i => ⟨encodeHeader .getbit 0 false false false, [i], [bytes]⟩
  | .rdNew slot truncate bytes => ⟨encodeHeader .rdNew slot truncate false false, [], [bytes]⟩
  | .rdEof slot => ⟨encodeHeader .rdEof slot false false false, [], []⟩
  | .rdBits slot n => ⟨encodeHeader .rdBits slot false false false, [n], []⟩
  | .rdAlign slot force => ⟨encodeHeader .rdAlign slot force false false, [], []⟩
  | .rdByte slot => ⟨encodeHeader .rdByte slot false false false, [], []⟩
  | .wrNew slot => ⟨encodeHeader .wrNew slot false false false, [], []⟩
  | .wrLen slot => ⟨encodeHeader .wrLen slot false false false, [], []⟩
  | .wrBits slot bitString => ⟨encodeHeader .wrBits slot false false false, [], [bitString]⟩
  | .wrByte slot byte => ⟨encodeHeader .wrByte slot false false false, [byte], []⟩
  | .wrPad slot force => ⟨encodeHeader .wrPad slot force false false, [], []⟩
  | .wrPop slot n => ⟨encodeHeader .wrPop slot false false false, [n], []⟩
  | .wrFin slot force => ⟨encodeHeader .wrFin slot force false false, [], []⟩
  | .cdNew slot base strict alphabet pad =>
    ⟨encodeHeader .cdNew slot strict pad.isSome (base == .base64), [], alphabet :: pad.toList⟩
  | .cdEncraw slot bytes => ⟨encodeHeader .cdEncraw slot false false false, [], [bytes]⟩
  | .cdEnc slot bytes => ⟨encodeHeader .cdEnc slot false false false, [], [bytes]⟩
  | .cdDecraw slot encoded => ⟨encodeHeader .cdDecraw slot false false false, [], [encoded]⟩
  | .cdDec slot encoded => ⟨encodeHeader .cdDec slot false false false, [], [encoded]⟩
  | .cdValid slot encoded => ⟨encodeHeader .cdValid slot false false false, [], [encoded]⟩
  | .enc32 bytes => ⟨encodeHeader .enc32 0 false false false, [], [bytes]⟩
  | .dec32 encoded => ⟨encodeHeader .dec32 0 false false false, [], [encoded]⟩
  | .valid32 encoded => ⟨encodeHeader .valid32 0 false false false, [], [encoded]⟩
  | .enc64 bytes => ⟨encodeHeader .enc64 0 false false true, [], [bytes]⟩
  | .dec64 encoded => ⟨encodeHeader .dec64 0 false false true, [], [encoded]⟩
  | .valid64 encoded => ⟨encodeHeader .valid64 0 false false true, [], [encoded]⟩

/-! ## The opcode table as mask and match (30_encoding.md R80) -/

/-- One row of spec/opcode_table.json. -/
structure Row where
  opcode  : Opcode
  pattern : BitVec 32
  mask    : BitVec 32
  deriving DecidableEq, Repr

/-- A header selects the row (30_encoding.md R80). -/
def Row.selects (row : Row) (h : BitVec 32) : Bool := h &&& row.mask == row.pattern

/-- The rows of spec/opcode_table.json, its `match` and `mask` copied, in its order. -/
def opcodeTable : List Row :=
  [ ⟨.maskbits,  0x00000000, 0xFFFFFFFF⟩,
    ⟨.padbits,   0x01000000, 0xFFFFFFFF⟩,
    ⟨.byte2bits, 0x02000000, 0xFFFEFFFF⟩,
    ⟨.getbit,    0x03000000, 0xFFFFFFFF⟩ ] ++
  [ ⟨.rdNew,   0x10000000, 0xFF0EFFFF⟩,
    ⟨.rdEof,   0x11000000, 0xFF0FFFFF⟩,
    ⟨.rdBits,  0x12000000, 0xFF0FFFFF⟩,
    ⟨.rdAlign, 0x13000000, 0xFF0EFFFF⟩,
    ⟨.rdByte,  0x14000000, 0xFF0FFFFF⟩ ] ++
  [ ⟨.wrNew,  0x20000000, 0xFF0FFFFF⟩,
    ⟨.wrLen,  0x21000000, 0xFF0FFFFF⟩,
    ⟨.wrBits, 0x22000000, 0xFF0FFFFF⟩,
    ⟨.wrByte, 0x23000000, 0xFF0FFFFF⟩,
    ⟨.wrPad,  0x24000000, 0xFF0EFFFF⟩,
    ⟨.wrPop,  0x25000000, 0xFF0FFFFF⟩,
    ⟨.wrFin,  0x26000000, 0xFF0EFFFF⟩ ] ++
  [ ⟨.cdNew,    0x30000000, 0xFF08FFFF⟩,
    ⟨.cdEncraw, 0x31000000, 0xFF0FFFFF⟩,
    ⟨.cdEnc,    0x32000000, 0xFF0FFFFF⟩,
    ⟨.cdDecraw, 0x33000000, 0xFF0FFFFF⟩,
    ⟨.cdDec,    0x34000000, 0xFF0FFFFF⟩,
    ⟨.cdValid,  0x35000000, 0xFF0FFFFF⟩ ] ++
  [ ⟨.enc32,   0x38000000, 0xFFFFFFFF⟩,
    ⟨.dec32,   0x39000000, 0xFFFFFFFF⟩,
    ⟨.valid32, 0x3A000000, 0xFFFFFFFF⟩,
    ⟨.enc64,   0x38040000, 0xFFFFFFFF⟩,
    ⟨.dec64,   0x39040000, 0xFFFFFFFF⟩,
    ⟨.valid64, 0x3A040000, 0xFFFFFFFF⟩ ]

/-! ## A word of the opcode table -/

/-- The packet of a bare header word: as many operands 0 and as many empty payloads as the row takes, which the header
alone fixes (30_encoding.md R74). The opcode table gives operands and payloads no bits (log entry 5). -/
def tablePacket (nbits w : Nat) : Packet :=
  let h := BitVec.ofNat 32 (w % 2 ^ nbits)
  match decodeOpcode h with
  | .error _ => ⟨h, [], []⟩
  | .ok op => ⟨h, List.replicate op.operandCount 0, List.replicate (op.payloadCount (Header.flagP h)) []⟩

/-- The instruction the decoder reads from a word numbered as spec/opcode_table.json numbers it. -/
def decodeTableWord (nbits w : Nat) : Option Instr :=
  match decode (tablePacket nbits w) with
  | .error _ => none
  | .ok i => some i

end Sys2Proof
end

