-- ==== Sys2Proof/Machine/State.lean ====
section
/-! DEFINITION. The state of the core: three arrays of instance slots (10_state.md R20), and beside them the interface
side of a transaction, the commands the host has still to issue and the last response (30_encoding.md R60, R69). -/

namespace Sys2Proof.Machine

/-- A BitReader instance (10_state.md R21). -/
structure Reader where
  buffer      : Octets
  bitPosition : Nat
  truncate    : Bool
  deriving DecidableEq, Repr

/-- A BitWriter instance: one bit string; `totalBits` is its length (10_state.md R23, R24). -/
structure Writer where
  bits : Bits
  deriving DecidableEq, Repr

/-- A codec instance: its configuration (10_state.md R25). -/
structure Codec where
  base     : Base
  alphabet : Octets
  padChar  : Option Byte
  strict   : Bool
  deriving DecidableEq, Repr

/-- The error kinds: three of the source, two of the framing (30_encoding.md R70, 60_exceptions.md R200, R201). -/
inductive ErrorKind where
  | invalidArgument
  | endOfBuffer
  | invalidFormat
  | illegalCommand
  | noInstance
  deriving DecidableEq, Repr

/-- A result that is not "nothing": a value, or an octet sequence with its length (30_encoding.md R69). -/
inductive Result where
  | value  (n : Nat)
  | octets (b : Octets)
  deriving DecidableEq, Repr

/-- A response packet. Only an OK response can carry a result (30_encoding.md R69). -/
inductive Response where
  | ok    (result : Option Result)
  | error (kind : ErrorKind)
  deriving DecidableEq, Repr

/-- Reasons the machine stops with a fault: NONE. Every failure the spec names is a response after which the core
goes on (60_exceptions.md R209, R211), so no step of this model ever faults, and this type has no constructor
(log entry 14). Nobody raises one; safe. -/
inductive Fault
  deriving DecidableEq, Repr

/-- Reasons a command has no meaning. -/
inductive Refusal where
  /-- The arm of an instruction whose meaning is not written yet; raised by `exec` alone. Safe: the run stops.
  No arm of this model raises it. -/
  | notModelled (mnemonic : String)
  /-- Raised by `CD.DEC` and `DEC32` when more bits must be cut than the last symbol has: the spec's own outcome
  `refuse` (43_basen_codec.md R169, 60_exceptions.md R218, 00_scope.md R10). Safe: the run stops where the hardware
  may go on (log entry 6). -/
  | decodeOvercut
  deriving DecidableEq, Repr

/-- The state. `rd`, `wr`, `cd` are the core's whole architectural state (10_state.md R20); the length of each is the
machine's `NR`, `NW`, `NC`, and an Empty slot is `none`. `commands` is the host's list of commands still to issue
(10_state.md R28, R30), oldest first, and `response` the response packet of the last command (30_encoding.md R69);
neither is state of the core and no command's effect depends on `response` (log entries 1 and 2). -/
structure State where
  rd       : List (Option Reader)
  wr       : List (Option Writer)
  cd       : List (Option Codec)
  commands : List Packet
  response : Option Response
  deriving DecidableEq, Repr

/-- The three outcomes of a step, at this machine's types. -/
abbrev StepOutcome := Host.Outcome State Fault Refusal

/-- Reset of a machine with `nr` reader, `nw` writer and `nc` codec slots: every slot Empty (10_state.md R31,
70_reset_and_hazards.md R230), no command issued and none answered yet. -/
def State.resetWith (nr nw nc : Nat) : State where
  rd := List.replicate nr none
  wr := List.replicate nw none
  cd := List.replicate nc none
  commands := []
  response := none

/-- The state right after reset, of a machine with the slot counts of Config. -/
def State.reset : State :=
  State.resetWith Config.readerSlots Config.writerSlots Config.codecSlots

end Sys2Proof.Machine
end

