-- ==== Sys2Proof/Machine/Parameters.lean ====
section
/-! DEFINITION. The parameters of 00_scope.md R3 and R4 that the commands read. They stand here, and not in Config.lean,
so that a later repair may mend a value a test shows wrong. -/

namespace Sys2Proof.Machine

/-- `PADBITS_EMPTY` (00_scope.md R4, D18): the empty string is padded to `n` zeros (log entry 7). -/
def Parameters.padBitsEmpty : Config.PadBitsEmpty := .padToN

/-- The characters with the codes `first`, `first + 1`, …, `count` of them. -/
def Parameters.charRange (first count : Nat) : Octets :=
  (List.range count).map fun j => BitVec.ofNat 8 (first + j)

/-- `DEFAULT_BASE32_ALPHABET` = `abcdefghijklmnopqrstuvwxyz234567` (00_scope.md R4, codes R7; log entry 9). -/
def Parameters.base32Alphabet : Octets :=
  Parameters.charRange 0x61 26 ++ Parameters.charRange 0x32 6

/-- `DEFAULT_BASE64_ALPHABET` = `A`–`Z`, `a`–`z`, `0`–`9`, `+`, `/` (00_scope.md R4, codes R7; log entry 9). -/
def Parameters.base64Alphabet : Octets :=
  Parameters.charRange 0x41 26 ++ Parameters.charRange 0x61 26 ++ Parameters.charRange 0x30 10 ++ [0x2B#8, 0x2F#8]

/-- The default codecs' pad character `=` (00_scope.md R3, R7). -/
def Parameters.defaultPad : Byte := 0x3D#8

/-- `k`, the bits of one symbol (43_basen_codec.md R160). -/
def symbolBits : Base → Nat
  | .base32 => 5
  | .base64 => 6

/-- `N`, the alphabet's length (43_basen_codec.md R160). -/
def alphabetSize : Base → Nat
  | .base32 => 32
  | .base64 => 64

/-- `G`, the boundary in symbols (43_basen_codec.md R160). -/
def groupSize : Base → Nat
  | .base32 => 8
  | .base64 => 4

/-- `PADRUNS`, the permitted lengths of the trailing pad run, literal sets (43_basen_codec.md R160). -/
def padRuns : Base → List Nat
  | .base32 => [1, 3, 4, 6]
  | .base64 => [1, 2]

/-- `DEFAULT_BASE32_CODEC` (10_state.md R26). -/
def defaultBase32 : Codec where
  base := .base32
  alphabet := Parameters.base32Alphabet
  padChar := some Parameters.defaultPad
  strict := false

/-- `DEFAULT_BASE64_CODEC` (10_state.md R26). -/
def defaultBase64 : Codec where
  base := .base64
  alphabet := Parameters.base64Alphabet
  padChar := some Parameters.defaultPad
  strict := false

end Sys2Proof.Machine
end

