-- ==== Sys2Proof/Machine/Operands.lean ====
section
/-! DEFINITION. How operands, payloads and bit sequences are read: conversions between values and bits
(00_scope.md R12), bit strings and characters (R8, R11), the two bit numberings of a byte array (20_memory.md R41, R43). -/

namespace Sys2Proof.Machine

/-- `toBits(v, m)`: element `j` is `(v >> (m-1-j)) & 1`, most significant bit first (00_scope.md R12). -/
def toBits (v m : Nat) : Bits :=
  (List.range m).map fun j => v.testBit (m - 1 - j)

/-- `toNat(w)`: the sum of `w[j]·2^(len(w)-1-j)`; 0 for the empty sequence (00_scope.md R12). -/
def toNat : Bits → Nat
  | [] => 0
  | b :: w => b.toNat * 2 ^ w.length + toNat w

/-- The character `'0'` or `'1'` of a bit (00_scope.md R7, R8). -/
def bitChar (b : Bool) : Byte := if b then 0x31#8 else 0x30#8

/-- `str(w)`, the character form of a bit sequence (00_scope.md R8). -/
def str (w : Bits) : Octets := w.map bitChar

/-- `isBitStr(s)`: every character is `'0'` or `'1'` (00_scope.md R8). -/
def isBitStr (s : Octets) : Bool := s.all fun c => c == 0x30#8 || c == 0x31#8

/-- `bitsOf(s)`, the inverse of `str` where `isBitStr(s)` (00_scope.md R8). -/
def bitsOf (s : Octets) : Bits := s.map fun c => c == 0x31#8

/-- `rep('0', m)` as characters (00_scope.md section 5.3). -/
def zeroChars (m : Nat) : Octets := List.replicate m 0x30#8

/-- `fold(c)`: `A`–`Z` to `a`–`z`, every other code unchanged (00_scope.md R11). -/
def fold (c : Byte) : Byte := if 0x41 ≤ c.toNat ∧ c.toNat ≤ 0x5A then c + 0x20#8 else c

/-- An integer operand in `[0, 255]` (30_encoding.md R67). -/
def isByteOperand (n : Int) : Bool := decide (0 ≤ n ∧ n ≤ 255)

/-- `StreamBit(buf, i)`: bit `7 - i mod 8` of byte `i div 8`, so index 0 is a byte's most significant bit
(20_memory.md R41). No command reads past the buffer in a state that meets the invariant of 10_state.md R21; the bit
there is false (log entry 10). -/
def streamBit (buf : Octets) (i : Nat) : Bool := (buf.getD (i / 8) 0#8).getLsbD (7 - i % 8)

/-- `MemRead(buf, i, m)`: the value of the stream bits `i .. i+m-1`, most significant first (20_memory.md R42). -/
def memRead (buf : Octets) (i m : Nat) : Nat :=
  toNat ((List.range m).map fun j => streamBit buf (i + j))

/-- `getBit` numbering: bit `i mod 8`, counted from the least significant, of byte `i div 8` (20_memory.md R43). -/
def lsbBit (buf : Octets) (i : Nat) : Bool := (buf.getD (i / 8) 0#8).getLsbD (i % 8)

/-- Writer packing: output byte `j` is `toNat(bits[8j : 8j+8])` (20_memory.md R44). -/
def packBytes (w : Bits) : Octets :=
  (List.range (w.length / 8)).map fun j => BitVec.ofNat 8 (toNat ((w.drop (8 * j)).take 8))

end Sys2Proof.Machine
end

