-- ==== Sys2Proof/Machine/Flags.lean ====
section
/-! DEFINITION. The core stores no flags (10_state.md R29). What stands in their place: conditions computed from an
instance when asked (10_state.md R32) and the status of a response (30_encoding.md R70). -/

namespace Sys2Proof.Machine

/-- `L(r)`, the buffer's length in bits (10_state.md R32). -/
def Reader.bitLength (r : Reader) : Nat := 8 * r.buffer.length

/-- `remaining(r)`, the bits still to read (10_state.md R32). -/
def Reader.remaining (r : Reader) : Nat := r.bitLength - r.bitPosition

/-- `eof(r)`: the position's byte index is past the buffer's last byte (10_state.md R32, 41_bitreader.md R121). -/
def Reader.eof (r : Reader) : Bool := decide (r.buffer.length ≤ r.bitPosition / 8)

/-- `aligned(r)` (10_state.md R32). -/
def Reader.aligned (r : Reader) : Bool := r.bitPosition % 8 == 0

/-- `totalBits(w)` (10_state.md R23, R32). -/
def Writer.totalBits (w : Writer) : Nat := w.bits.length

/-- The number of an error kind (30_encoding.md R70, 60_exceptions.md R201). -/
def ErrorKind.code : ErrorKind → Nat
  | .invalidArgument => 1
  | .endOfBuffer => 2
  | .invalidFormat => 3
  | .illegalCommand => 4
  | .noInstance => 5

/-- The status code of a response; `OK` is 0 (30_encoding.md R70). -/
def Response.status : Response → Nat
  | .ok _ => 0
  | .error kind => kind.code

/-- A Boolean result is the value 1 or 0 (30_encoding.md R68). -/
def Result.ofBool (b : Bool) : Result := .value b.toNat

end Sys2Proof.Machine
end

