-- ==== Sys2Proof/Machine/Ops.lean ====
section
/-! DEFINITION. The operations the meanings share: answering, taking an error, reaching an instance slot, writing one,
and presenting the host's next command. -/

namespace Sys2Proof.Machine

/-- `return`: the command ends with status OK (00_scope.md section 5.3, 30_encoding.md R69). -/
def State.reply (s : State) (result : Option Result) : StepOutcome :=
  .next { s with response := some (.ok result) }

/-- `raise`, TAKING AN ERROR: the command ends at once, the response carries the error kind and no result, every slot
holds what it held, nothing is saved and control goes nowhere (60_exceptions.md R207, R209). There is no return from an
error: it left nothing to restore (R211). -/
def State.raise (s : State) (kind : ErrorKind) : StepOutcome :=
  .next { s with response := some (.error kind) }

/-- Overwrite the whole slot `RD[slot]` (00_scope.md section 5.3). -/
def State.setReader (s : State) (slot : Nat) (r : Reader) : State :=
  { s with rd := s.rd.set slot (some r) }

/-- Overwrite the whole slot `WR[slot]`. -/
def State.setWriter (s : State) (slot : Nat) (w : Writer) : State :=
  { s with wr := s.wr.set slot (some w) }

/-- Overwrite the whole slot `CD[slot]`. -/
def State.setCodec (s : State) (slot : Nat) (c : Codec) : State :=
  { s with cd := s.cd.set slot (some c) }

/-- Work on the reader in `RD[slot]`: a slot the machine does not have is `IllegalCommand` (30_encoding.md R64, R72 (b)),
an Empty slot is `NoInstance` (60_exceptions.md R206), in that order (R208). -/
def State.withReader (s : State) (slot : Nat) (f : Reader → StepOutcome) : StepOutcome :=
  match s.rd[slot]? with
  | none => s.raise .illegalCommand
  | some none => s.raise .noInstance
  | some (some r) => f r

/-- Work on the writer in `WR[slot]`, with the checks of `withReader`. -/
def State.withWriter (s : State) (slot : Nat) (f : Writer → StepOutcome) : StepOutcome :=
  match s.wr[slot]? with
  | none => s.raise .illegalCommand
  | some none => s.raise .noInstance
  | some (some w) => f w

/-- Work on the codec in `CD[slot]`, with the checks of `withReader`. -/
def State.withCodec (s : State) (slot : Nat) (f : Codec → StepOutcome) : StepOutcome :=
  match s.cd[slot]? with
  | none => s.raise .illegalCommand
  | some none => s.raise .noInstance
  | some (some c) => f c

/-- Construct into `slot` of an array with `count` slots: the slot must exist (30_encoding.md R64); what it held is
dropped (70_reset_and_hazards.md R239). -/
def State.withSlot (s : State) (count slot : Nat) (construct : StepOutcome) : StepOutcome :=
  if slot < count then construct else s.raise .illegalCommand

/-- The command the host presents next, and the state with it taken off the host's list (30_encoding.md R60). -/
def State.takeCommand (s : State) : Option (Packet × State) :=
  match s.commands with
  | [] => none
  | pk :: rest => some (pk, { s with commands := rest })

/-- The host has issued no further command: nothing happens (10_state.md R30, 60_exceptions.md R213; log entry 3). -/
def State.idle (s : State) : StepOutcome := .next s

/-- The response to a packet that is illegal by its header or its shape (30_encoding.md R72 (a) and (c)). -/
def State.illegal (s : State) (_cause : Illegal) : StepOutcome := s.raise .illegalCommand

/-- The host presents this packet before everything it has still to issue. -/
def State.present (s : State) (pk : Packet) : State := { s with commands := pk :: s.commands }

end Sys2Proof.Machine
end

