-- ==== Sys2Proof/Machine/BitReader.lean ====
section
/-! DEFINITION. The BitReader unit (41_bitreader.md). -/

namespace Sys2Proof.Machine

/-- A freshly constructed reader (41_bitreader.md R120). -/
def Reader.new (buffer : Octets) (truncate : Bool) : Reader where
  buffer := buffer
  bitPosition := 0
  truncate := truncate

/-- `readBits(n)`: the value read and the reader after it (41_bitreader.md R122). The position advances by the bits
actually read; a short read fills the low bits of the value in truncate mode and the high bits otherwise. -/
def Reader.readBits (r : Reader) (n : Int) : Except ErrorKind (Nat × Reader) :=
  if n < 1 ∨ 8 < n then .error .invalidArgument
  else if r.remaining = 0 then .error .endOfBuffer
  else
    let m := min n.toNat r.remaining
    let v := memRead r.buffer r.bitPosition m
    let after := { r with bitPosition := r.bitPosition + m }
    if m = n.toNat then .ok (v, after)
    else if r.truncate then .ok (v, after)
    else .ok (v <<< (n.toNat - m), after)

/-- `moveToByteBoundary(force)`: the reader after an implicit read, whose value is discarded (41_bitreader.md R124). -/
def Reader.moveToByteBoundary (r : Reader) (force : Bool) : Except ErrorKind Reader :=
  if r.bitPosition % 8 ≠ 0 then (r.readBits (8 - (r.bitPosition % 8 : Nat))).map Prod.snd
  else if force then (r.readBits 8).map Prod.snd
  else .ok r

/-- `RD.NEW` (41_bitreader.md R120). -/
def execRdNew (slot : Nat) (truncate : Bool) (bytes : Octets) (s : State) : StepOutcome :=
  s.withSlot s.rd.length slot ((s.setReader slot (Reader.new bytes truncate)).reply none)

/-- `RD.EOF` (41_bitreader.md R121). -/
def execRdEof (slot : Nat) (s : State) : StepOutcome :=
  s.withReader slot fun r => s.reply (some (Result.ofBool r.eof))

/-- `RD.BITS` (41_bitreader.md R122). -/
def execRdBits (slot : Nat) (n : Int) (s : State) : StepOutcome :=
  s.withReader slot fun r =>
    match r.readBits n with
    | .ok (v, after) => (s.setReader slot after).reply (some (.value v))
    | .error kind => s.raise kind

/-- `RD.ALIGN` (41_bitreader.md R124). -/
def execRdAlign (slot : Nat) (force : Bool) (s : State) : StepOutcome :=
  s.withReader slot fun r =>
    match r.moveToByteBoundary force with
    | .ok after => (s.setReader slot after).reply none
    | .error kind => s.raise kind

/-- `RD.BYTE`: the read of `RD.BITS` with `n = 8` (41_bitreader.md R125). -/
def execRdByte (slot : Nat) (s : State) : StepOutcome :=
  s.withReader slot fun r =>
    match r.readBits 8 with
    | .ok (v, after) => (s.setReader slot after).reply (some (.value v))
    | .error kind => s.raise kind

end Sys2Proof.Machine
end

