-- ==== Sys2Proof/Machine/BitWriter.lean ====
section
/-! DEFINITION. The BitWriter unit (42_bitwriter.md). The laws of R148 hold of `writeBits`, `writeByte`,
`padToByteBoundary`, `pop` and `finalize` together; they are proved in Laws/Writer.lean (`Writer.length_laws`,
`Writer.pop_writeBits`, `Writer.finalize_writeBytes`, `Writer.readBack_finalize`). -/

namespace Sys2Proof.Machine

/-- A freshly constructed writer (42_bitwriter.md R140). -/
def Writer.new : Writer where
  bits := []

/-- `MemWrite`: append bits at the end (00_scope.md section 5.3, 20_memory.md R40). -/
def Writer.append (w : Writer) (more : Bits) : Writer where
  bits := w.bits ++ more

/-- `padPattern(g)`: `g - 1` zeros, then a single 1 (42_bitwriter.md R144). -/
def padPattern (g : Nat) : Bits := List.replicate (g - 1) false ++ [true]

/-- `writeBits(bitString)`: the whole string is examined before anything is appended (42_bitwriter.md R142). -/
def Writer.writeBits (w : Writer) (bitString : Octets) : Except ErrorKind Writer :=
  if isBitStr bitString then .ok (w.append (bitsOf bitString)) else .error .invalidArgument

/-- `writeByte(byte)` (42_bitwriter.md R143). -/
def Writer.writeByte (w : Writer) (byte : Int) : Except ErrorKind Writer :=
  if isByteOperand byte then .ok (w.append (toBits byte.toNat 8)) else .error .invalidArgument

/-- `padToByteBoundary(force)` (42_bitwriter.md R145). -/
def Writer.padToByteBoundary (w : Writer) (force : Bool) : Writer :=
  if w.totalBits % 8 ≠ 0 then w.append (padPattern (8 - w.totalBits % 8))
  else if force then w.append (padPattern 8)
  else w

/-- `pop(n)`: the last `n` bits in stream order, and the writer without them (42_bitwriter.md R146). -/
def Writer.pop (w : Writer) (n : Int) : Except ErrorKind (Bits × Writer) :=
  if n < 0 ∨ (w.totalBits : Int) < n then .error .invalidArgument
  else .ok (w.bits.drop (w.totalBits - n.toNat), { bits := w.bits.take (w.totalBits - n.toNat) })

/-- `finalize(force)`: the packed bytes, and the writer with the padding that stays in it (42_bitwriter.md R147). -/
def Writer.finalize (w : Writer) (force : Bool) : Octets × Writer :=
  let padded := w.padToByteBoundary force
  (packBytes padded.bits, padded)

/-- `WR.NEW` (42_bitwriter.md R140). -/
def execWrNew (slot : Nat) (s : State) : StepOutcome :=
  s.withSlot s.wr.length slot ((s.setWriter slot Writer.new).reply none)

/-- `WR.LEN` (42_bitwriter.md R141). -/
def execWrLen (slot : Nat) (s : State) : StepOutcome :=
  s.withWriter slot fun w => s.reply (some (.value w.totalBits))

/-- `WR.BITS` (42_bitwriter.md R142). -/
def execWrBits (slot : Nat) (bitString : Octets) (s : State) : StepOutcome :=
  s.withWriter slot fun w =>
    match w.writeBits bitString with
    | .ok after => (s.setWriter slot after).reply none
    | .error kind => s.raise kind

/-- `WR.BYTE` (42_bitwriter.md R143). -/
def execWrByte (slot : Nat) (byte : Int) (s : State) : StepOutcome :=
  s.withWriter slot fun w =>
    match w.writeByte byte with
    | .ok after => (s.setWriter slot after).reply none
    | .error kind => s.raise kind

/-- `WR.PAD` (42_bitwriter.md R145). -/
def execWrPad (slot : Nat) (force : Bool) (s : State) : StepOutcome :=
  s.withWriter slot fun w => (s.setWriter slot (w.padToByteBoundary force)).reply none

/-- `WR.POP` (42_bitwriter.md R146). -/
def execWrPop (slot : Nat) (n : Int) (s : State) : StepOutcome :=
  s.withWriter slot fun w =>
    match w.pop n with
    | .ok (out, after) => (s.setWriter slot after).reply (some (.octets (str out)))
    | .error kind => s.raise kind

/-- `WR.FIN` (42_bitwriter.md R147). -/
def execWrFin (slot : Nat) (force : Bool) (s : State) : StepOutcome :=
  s.withWriter slot fun w =>
    (s.setWriter slot (w.finalize force).2).reply (some (.octets (w.finalize force).1))

end Sys2Proof.Machine
end

