-- ==== Sys2Proof/Machine/BaseN.lean ====
section
/-! DEFINITION. The Base32 / Base64 codec unit (43_basen_codec.md). The reader that encoding drives and the writer that
decoding fills are values inside one command; no slot but the codec's own is reached (R180). -/

namespace Sys2Proof.Machine

/-- What two characters must share to be equivalent under a base: the folded code for base32, the code itself for
base64 (43_basen_codec.md R160). -/
def charKey : Base → Byte → Byte
  | .base32, c => fold c
  | .base64, c => c

/-- `eq(a, b)` (43_basen_codec.md R160). -/
def charEq (base : Base) (a b : Byte) : Bool := charKey base a == charKey base b

/-- Codec construction with its four failures (43_basen_codec.md R161). -/
def Codec.construct (base : Base) (strict : Bool) (alphabet : Octets) (pad : Option Octets) :
    Except ErrorKind Codec :=
  if alphabet.length ≠ alphabetSize base then .error .invalidArgument
  else if ¬ alphabet.Pairwise (fun a b => charEq base a b = false) then .error .invalidArgument
  else
    match pad with
    | none => .ok { base := base, alphabet := alphabet, padChar := none, strict := strict }
    | some [c] =>
      if alphabet.contains c then .error .invalidArgument
      else .ok { base := base, alphabet := alphabet, padChar := some c, strict := strict }
    | some _ => .error .invalidArgument

/-- `lookup(cfg, c)`, the reverse lookup (43_basen_codec.md R162). -/
def Codec.lookup (cfg : Codec) (c : Byte) : Option Nat :=
  cfg.alphabet.findIdx? fun a => charEq cfg.base a c

/-- The forward mapping `cfg.alphabet[i]` (43_basen_codec.md R162); a symbol is always below the alphabet's length in a
state that meets the invariant (log entry 10). -/
def Codec.symbolChar (cfg : Codec) (i : Nat) : Byte := cfg.alphabet.getD i 0#8

/-- `while not eof(r) do readBits(r, k)`, with at most `fuel` reads. Each read advances by a bit at least, so as many
reads as the buffer has bits are enough (70_reset_and_hazards.md R243). -/
def readSymbols (k : Nat) : Nat → Reader → List Nat
  | 0, _ => []
  | fuel + 1, r =>
    if r.eof then []
    else
      match r.readBits k with
      | .ok (v, after) => v :: readSymbols k fuel after
      | .error _ => []

/-- `encodeRaw(bytes)`: a private non-truncating reader, read `k` bits at a time until eof (43_basen_codec.md R163). -/
def Codec.encodeRaw (cfg : Codec) (bytes : Octets) : List Nat :=
  readSymbols (symbolBits cfg.base) (8 * bytes.length) (Reader.new bytes false)

/-- `encode(bytes)` (43_basen_codec.md R164). -/
def Codec.encode (cfg : Codec) (bytes : Octets) : Octets :=
  let chars := (cfg.encodeRaw bytes).map cfg.symbolChar
  let extra := chars.length % groupSize cfg.base
  match cfg.padChar with
  | none => chars
  | some pc => if extra ≠ 0 then chars ++ List.replicate (groupSize cfg.base - extra) pc else chars

/-- The length `q` of the maximal trailing run of the pad character, compared exactly (43_basen_codec.md R165). -/
def Codec.padRun (cfg : Codec) (e : Octets) : Nat :=
  match cfg.padChar with
  | none => 0
  | some pc => (e.reverse.takeWhile (· == pc)).length

/-- `stripPadding` (43_basen_codec.md R165). -/
def Codec.stripPadding (cfg : Codec) (e : Octets) : Except ErrorKind Octets :=
  let q := cfg.padRun e
  if 0 < q ∧ q ∉ padRuns cfg.base then .error .invalidFormat
  else if (cfg.strict = true ∨ 0 < q) ∧ e.length % groupSize cfg.base ≠ 0 then .error .invalidFormat
  else .ok (e.take (e.length - q))

/-- The symbols of a body: the pad character and unknown characters fail (43_basen_codec.md R166). -/
def Codec.lookupAll (cfg : Codec) : Octets → Except ErrorKind (List Nat)
  | [] => .ok []
  | c :: rest =>
    if cfg.padChar = some c then .error .invalidFormat
    else
      match cfg.lookup c with
      | none => .error .invalidFormat
      | some j =>
        match cfg.lookupAll rest with
        | .error kind => .error kind
        | .ok js => .ok (j :: js)

/-- `nExtraBits(n)` (43_basen_codec.md R167). -/
def nExtraBits (base : Base) (n : Nat) : Nat := n * symbolBits base % 8

/-- `nBytes(n)` (43_basen_codec.md R167). -/
def nBytes (base : Base) (n : Nat) : Nat := n * symbolBits base / 8

/-- The low `nExtraBits` bits of the final symbol are zero; nothing to check without a symbol
(43_basen_codec.md R166). -/
def finalSymbolOk (base : Base) (symbols : List Nat) : Bool :=
  match symbols.getLast? with
  | none => true
  | some last => last &&& ((1 <<< nExtraBits base symbols.length) - 1) == 0

/-- `decodeRaw(encoded)` (43_basen_codec.md R166). -/
def Codec.decodeRaw (cfg : Codec) (e : Octets) : Except ErrorKind (List Nat) :=
  match cfg.stripPadding e with
  | .error kind => .error kind
  | .ok body =>
    match cfg.lookupAll body with
    | .error kind => .error kind
    | .ok symbols =>
      if finalSymbolOk cfg.base symbols then .ok symbols else .error .invalidFormat

/-- The three outcomes of `decode` (00_scope.md R10). -/
inductive Decoded where
  | bytes (b : Octets)
  | error (kind : ErrorKind)
  /-- `refuse`: more bits to cut than the last symbol has (43_basen_codec.md R169) -/
  | overcut
  deriving DecidableEq, Repr

/-- The bits `decode` writes: `k` for each symbol but the last, the high `k - nExtraBits` of the last
(43_basen_codec.md R168). -/
def symbolStream (base : Base) (symbols : List Nat) : Bits :=
  symbols.dropLast.flatMap (fun v => toBits v (symbolBits base)) ++
    match symbols.getLast? with
    | none => []
    | some last => (toBits last (symbolBits base)).take (symbolBits base - nExtraBits base symbols.length)

/-- `decode(encoded)`: the symbols through a private writer, finalised without forced padding
(43_basen_codec.md R168, R169). -/
def Codec.decode (cfg : Codec) (e : Octets) : Decoded :=
  match cfg.decodeRaw e with
  | .error kind => .error kind
  | .ok symbols =>
    if symbolBits cfg.base < nExtraBits cfg.base symbols.length then .overcut
    else .bytes ((Writer.new.append (symbolStream cfg.base symbols)).finalize false).1

/-- `isValid(encoded)`: the one place where an error becomes a value (43_basen_codec.md R170, 60_exceptions.md R210). -/
def Codec.isValid (cfg : Codec) (e : Octets) : Bool :=
  match cfg.decodeRaw e with
  | .error _ => false
  | .ok _ => true

/-- One octet per symbol (30_encoding.md R68). -/
def symbolOctets (symbols : List Nat) : Octets := symbols.map (BitVec.ofNat 8)

/-- The response to a decode (43_basen_codec.md R168); the overcut case is refused (R169, log entry 6). -/
def State.replyDecoded (s : State) (d : Decoded) : StepOutcome :=
  match d with
  | .bytes b => s.reply (some (.octets b))
  | .error kind => s.raise kind
  | .overcut => .refused .decodeOvercut

/-- `CD.NEW` (43_basen_codec.md R161). -/
def execCdNew (slot : Nat) (base : Base) (strict : Bool) (alphabet : Octets) (pad : Option Octets) (s : State) :
    StepOutcome :=
  s.withSlot s.cd.length slot
    (match Codec.construct base strict alphabet pad with
    | .ok c => (s.setCodec slot c).reply none
    | .error kind => s.raise kind)

/-- `CD.ENCRAW` (43_basen_codec.md R163). -/
def execCdEncraw (slot : Nat) (bytes : Octets) (s : State) : StepOutcome :=
  s.withCodec slot fun cfg => s.reply (some (.octets (symbolOctets (cfg.encodeRaw bytes))))

/-- `CD.ENC` (43_basen_codec.md R164). -/
def execCdEnc (slot : Nat) (bytes : Octets) (s : State) : StepOutcome :=
  s.withCodec slot fun cfg => s.reply (some (.octets (cfg.encode bytes)))

/-- `CD.DECRAW` (43_basen_codec.md R166). -/
def execCdDecraw (slot : Nat) (encoded : Octets) (s : State) : StepOutcome :=
  s.withCodec slot fun cfg =>
    match cfg.decodeRaw encoded with
    | .ok symbols => s.reply (some (.octets (symbolOctets symbols)))
    | .error kind => s.raise kind

/-- `CD.DEC` (43_basen_codec.md R168, R169). -/
def execCdDec (slot : Nat) (encoded : Octets) (s : State) : StepOutcome :=
  s.withCodec slot fun cfg => s.replyDecoded (cfg.decode encoded)

/-- `CD.VALID` (43_basen_codec.md R170). -/
def execCdValid (slot : Nat) (encoded : Octets) (s : State) : StepOutcome :=
  s.withCodec slot fun cfg => s.reply (some (Result.ofBool (cfg.isValid encoded)))

/-- `ENC32` (43_basen_codec.md R172). -/
def execEnc32 (bytes : Octets) (s : State) : StepOutcome :=
  s.reply (some (.octets (defaultBase32.encode bytes)))

/-- `DEC32` (43_basen_codec.md R173, R169). -/
def execDec32 (encoded : Octets) (s : State) : StepOutcome :=
  s.replyDecoded (defaultBase32.decode encoded)

/-- `VALID32` (43_basen_codec.md R174). -/
def execValid32 (encoded : Octets) (s : State) : StepOutcome :=
  s.reply (some (Result.ofBool (defaultBase32.isValid encoded)))

/-- `ENC64` (43_basen_codec.md R175). -/
def execEnc64 (bytes : Octets) (s : State) : StepOutcome :=
  s.reply (some (.octets (defaultBase64.encode bytes)))

/-- `DEC64` (43_basen_codec.md R176). -/
def execDec64 (encoded : Octets) (s : State) : StepOutcome :=
  s.replyDecoded (defaultBase64.decode encoded)

/-- `VALID64` (43_basen_codec.md R177). -/
def execValid64 (encoded : Octets) (s : State) : StepOutcome :=
  s.reply (some (Result.ofBool (defaultBase64.isValid encoded)))

end Sys2Proof.Machine
end

