-- ==== Sys2Proof/Machine/BitOps.lean ====
section
/-! DEFINITION. The BitOps unit, stateless (40_bitops.md). -/

namespace Sys2Proof.Machine

/-- `maskBits(byte, i0, i1)` (40_bitops.md R100). -/
def maskBits (byte i0 i1 : Int) : Except ErrorKind Nat :=
  if isByteOperand byte = false then .error .invalidArgument
  else if ¬ (0 ≤ i0 ∧ i0 < i1 ∧ i1 ≤ 8) then .error .invalidArgument
  else .ok ((byte.toNat >>> (8 - i1.toNat)) &&& ((1 <<< (i1.toNat - i0.toNat)) - 1))

/-- `padBits(bitString, n)`, with the reading of the empty string as an argument; the characters are not checked
(40_bitops.md R101). -/
def padBits (empty : Config.PadBitsEmpty) (bitString : Octets) (n : Int) : Except ErrorKind Octets :=
  if n ≤ 0 then .error .invalidArgument
  else
    let size := bitString.length
    if 0 < size ∧ size % n.toNat = 0 then .ok bitString
    else if size = 0 then
      match empty with
      | .padToN => .ok (zeroChars n.toNat)
      | .unchanged => .ok bitString
    else .ok (zeroChars ((size / n.toNat + 1) * n.toNat - size) ++ bitString)

/-- The bits a byte needs: 1 for 0, else the least `m` with `byte < 2^m` (40_bitops.md R102). -/
def bitsNeeded (byte : Nat) : Nat := if byte = 0 then 1 else byte.log2 + 1

/-- `byteToBits(byte, n, prefixed)` (40_bitops.md R102). -/
def byteToBits (byte n : Int) (prefixed : Bool) : Except ErrorKind Octets :=
  if isByteOperand byte = false then .error .invalidArgument
  else if n < bitsNeeded byte.toNat then .error .invalidArgument
  else
    let digits := str (toBits byte.toNat n.toNat)
    .ok (if prefixed then [0x30#8, 0x62#8] ++ digits else digits)

/-- `getBit(bytes, i)` (40_bitops.md R103). -/
def getBit (bytes : Octets) (i : Int) : Except ErrorKind Bool :=
  if i < 0 ∨ bytes.length ≤ i.toNat / 8 then .error .invalidArgument
  else .ok (lsbBit bytes i.toNat)

/-- `MASKBITS` (40_bitops.md R100). -/
def execMaskbits (byte i0 i1 : Int) (s : State) : StepOutcome :=
  match maskBits byte i0 i1 with
  | .ok v => s.reply (some (.value v))
  | .error kind => s.raise kind

/-- `PADBITS` (40_bitops.md R101). -/
def execPadbits (bitString : Octets) (n : Int) (s : State) : StepOutcome :=
  match padBits Parameters.padBitsEmpty bitString n with
  | .ok padded => s.reply (some (.octets padded))
  | .error kind => s.raise kind

/-- `BYTE2BITS` (40_bitops.md R102). -/
def execByte2bits (byte n : Int) (prefixed : Bool) (s : State) : StepOutcome :=
  match byteToBits byte n prefixed with
  | .ok digits => s.reply (some (.octets digits))
  | .error kind => s.raise kind

/-- `GETBIT` (40_bitops.md R103). -/
def execGetbit (bytes : Octets) (i : Int) (s : State) : StepOutcome :=
  match getBit bytes i with
  | .ok b => s.reply (some (Result.ofBool b))
  | .error kind => s.raise kind

end Sys2Proof.Machine
end

