-- ==== Sys2Proof/Machine/Dispatch.lean ====
section
/-! DEFINITION. One arm per command, each one direct call of its meaning (30_encoding.md R63). -/

namespace Sys2Proof.Machine

def exec (i : Instr) (s : State) : Host.Outcome State Fault Refusal :=
  match i with
  | .maskbits byte i0 i1 => Sys2Proof.Machine.execMaskbits byte i0 i1 s
  | .padbits bitString n => Sys2Proof.Machine.execPadbits bitString n s
  | .byte2bits byte n prefixed => Sys2Proof.Machine.execByte2bits byte n prefixed s
  | .getbit bytes k => Sys2Proof.Machine.execGetbit bytes k s
  | .rdNew slot truncate bytes => Sys2Proof.Machine.execRdNew slot truncate bytes s
  | .rdEof slot => Sys2Proof.Machine.execRdEof slot s
  | .rdBits slot n => Sys2Proof.Machine.execRdBits slot n s
  | .rdAlign slot force => Sys2Proof.Machine.execRdAlign slot force s
  | .rdByte slot => Sys2Proof.Machine.execRdByte slot s
  | .wrNew slot => Sys2Proof.Machine.execWrNew slot s
  | .wrLen slot => Sys2Proof.Machine.execWrLen slot s
  | .wrBits slot bitString => Sys2Proof.Machine.execWrBits slot bitString s
  | .wrByte slot byte => Sys2Proof.Machine.execWrByte slot byte s
  | .wrPad slot force => Sys2Proof.Machine.execWrPad slot force s
  | .wrPop slot n => Sys2Proof.Machine.execWrPop slot n s
  | .wrFin slot force => Sys2Proof.Machine.execWrFin slot force s
  | .cdNew slot base strict alphabet pad => Sys2Proof.Machine.execCdNew slot base strict alphabet pad s
  | .cdEncraw slot bytes => Sys2Proof.Machine.execCdEncraw slot bytes s
  | .cdEnc slot bytes => Sys2Proof.Machine.execCdEnc slot bytes s
  | .cdDecraw slot encoded => Sys2Proof.Machine.execCdDecraw slot encoded s
  | .cdDec slot encoded => Sys2Proof.Machine.execCdDec slot encoded s
  | .cdValid slot encoded => Sys2Proof.Machine.execCdValid slot encoded s
  | .enc32 bytes => Sys2Proof.Machine.execEnc32 bytes s
  | .dec32 encoded => Sys2Proof.Machine.execDec32 encoded s
  | .valid32 encoded => Sys2Proof.Machine.execValid32 encoded s
  | .enc64 bytes => Sys2Proof.Machine.execEnc64 bytes s
  | .dec64 encoded => Sys2Proof.Machine.execDec64 encoded s
  | .valid64 encoded => Sys2Proof.Machine.execValid64 encoded s

end Sys2Proof.Machine
end

