-- ==== Sys2Proof/Machine/Step.lean ====
section
/-! DEFINITION. One step: the host presents its next command and the core executes it to completion
(30_encoding.md R60, 20_memory.md R48, R50). -/

namespace Sys2Proof.Machine

/-- One transaction: take the next packet, decode it, execute it and answer; an illegal packet is answered
`IllegalCommand` (30_encoding.md R72); with no packet nothing happens (log entry 3). -/
def step (s : State) : Host.Outcome State Fault Refusal :=
  match s.takeCommand with
  | none => s.idle
  | some (pk, taken) =>
    match decode pk with
    | .ok i => exec i taken
    | .error cause => taken.illegal cause

/-- The state in which the next command is the instruction of a table word: the packet stands first in the host's list
(log entry 5). -/
def State.withFetchWord (s : State) (nbits w : Nat) : State := s.present (tablePacket nbits w)

end Sys2Proof.Machine
end

