-- ==== Sys2Proof/Machine/Assembler.lean ====
section
/-! DEFINITION. The assembler: one line of text to one command (30_encoding.md R75), the source's defaults filled in
(R76), the four pseudo-instructions (R77). It is on the host's side: no step reads it, and the core has no defaults.
What R75 does not settle is in log entry 12. -/

namespace Sys2Proof.Machine.Assembler

abbrev Text := List Char

/-- The Boolean flags by the source's argument names (30_encoding.md R75). -/
inductive FlagName where
  | truncate
  | force
  | prefixed
  | strict
  deriving DecidableEq, Repr

/-- One argument of a line. -/
inductive Arg where
  | slot    (array : SlotArray) (n : Nat)
  | integer (n : Int)
  | bytes   (b : Octets)
  | str     (b : Octets)
  | flag    (name : FlagName) (value : Bool)
  | base    (b : Base)
  | pad     (b : Octets)
  deriving DecidableEq, Repr

/-! ## Characters and numbers -/

/-- Drop leading white space. R75 does not say what white space is; DESIGN CHOICE (log entry 12): the space character
alone, a tab is part of a word. -/
def trimLeft : Text → Text
  | [] => []
  | c :: rest => if c = ' ' then trimLeft rest else c :: rest

/-- Drop white space at both ends (log entry 12, as `trimLeft`). -/
def trim (t : Text) : Text := (trimLeft (trimLeft t).reverse).reverse

/-- The octet of a character: its code, where it fits 8 bits (00_scope.md R7). -/
def charOctet (c : Char) : Option Byte := if c.toNat < 256 then some (BitVec.ofNat 8 c.toNat) else none

/-- The value of a digit, in either case of a letter. -/
def digitValue (c : Char) : Option Nat :=
  if 0x30 ≤ c.toNat ∧ c.toNat ≤ 0x39 then some (c.toNat - 0x30)
  else if 0x61 ≤ c.toNat ∧ c.toNat ≤ 0x66 then some (c.toNat - 0x61 + 10)
  else if 0x41 ≤ c.toNat ∧ c.toNat ≤ 0x46 then some (c.toNat - 0x41 + 10)
  else none

def digitsFrom (radix acc : Nat) : Text → Option Nat
  | [] => some acc
  | c :: rest =>
    match digitValue c with
    | none => none
    | some d => if d < radix then digitsFrom radix (acc * radix + d) rest else none

/-- A numeral: one digit at least. -/
def numeral (radix : Nat) : Text → Option Nat
  | [] => none
  | t => digitsFrom radix 0 t

/-- A decimal, `0x` or `0b` literal (30_encoding.md R75). -/
def natural (t : Text) : Option Nat :=
  match t with
  | '0' :: 'x' :: rest => numeral 16 rest
  | '0' :: 'b' :: rest => numeral 2 rest
  | _ => numeral 10 t

/-- An integer literal, optionally negative (30_encoding.md R75). -/
def integer (t : Text) : Option Int :=
  match t with
  | '-' :: rest => (natural rest).map fun n => -(n : Int)
  | _ => (natural t).map fun n => (n : Int)

/-! ## Cutting a line -/

/-- The part of a line before its result. R75 says that a result is shown after `->` and shows it on command lines, not
whether a line given to the assembler may carry it; DESIGN CHOICE (log entry 12): it may, outside quotes, and what
follows `->` is not read. -/
def beforeResult (quoted : Bool) : Text → Text
  | [] => []
  | c :: rest =>
    if c = '"' then c :: beforeResult (!quoted) rest
    else if c = '-' ∧ quoted = false ∧ rest.head? = some '>' then []
    else c :: beforeResult quoted rest

/-- Cut at every comma outside quotes and brackets; `quoted` and `bracketed` say where the scan stands, `word` is the
piece so far, reversed. -/
def cut (quoted bracketed : Bool) (word : Text) : Text → List Text
  | [] => [word.reverse]
  | c :: rest =>
    if c = '"' then cut (!quoted) bracketed (c :: word) rest
    else if quoted then cut true bracketed (c :: word) rest
    else if c = '[' then cut false true (c :: word) rest
    else if c = ']' then cut false false (c :: word) rest
    else if c = ',' ∧ bracketed = false then word.reverse :: cut false bracketed [] rest
    else cut false bracketed (c :: word) rest

/-- The arguments of what follows the mnemonic. -/
def pieces (t : Text) : List Text :=
  if trim t = [] then [] else (cut false false [] t).map trim

/-- Apply a partial function to every element, failing where it fails. -/
def all? {α β : Type} (f : α → Option β) : List α → Option (List β)
  | [] => some []
  | a :: rest =>
    match f a, all? f rest with
    | some b, some bs => some (b :: bs)
    | _, _ => none

/-- The text between an opening mark already taken and the closing mark that must end the piece. -/
def closedBy (mark : Char) (t : Text) : Option Text :=
  match t.reverse with
  | c :: inner => if c = mark then some inner.reverse else none
  | [] => none

/-- `"..."`: each character stands for its code (30_encoding.md R75); a quote has no notation inside. -/
def quotedString (t : Text) : Option Octets :=
  match t with
  | '"' :: rest =>
    match closedBy '"' rest with
    | some inner => if inner.contains '"' then none else all? charOctet inner
    | none => none
  | _ => none

def byteLiteral (t : Text) : Option Byte :=
  match natural (trim t) with
  | some n => if n < 256 then some (BitVec.ofNat 8 n) else none
  | none => none

/-- `[b0, b1, ...]` (30_encoding.md R75). -/
def byteList (t : Text) : Option Octets :=
  match t with
  | '[' :: rest =>
    match closedBy ']' rest with
    | some inner => all? byteLiteral (pieces inner)
    | none => none
  | _ => none

/-- Pairs of hexadecimal digits. -/
def hexPairs : Text → Option Octets
  | [] => some []
  | [_] => none
  | a :: b :: rest =>
    match digitValue a, digitValue b, hexPairs rest with
    | some x, some y, some more => some (BitVec.ofNat 8 (16 * x + y) :: more)
    | _, _, _ => none

/-- `hex"..."` (30_encoding.md R75). -/
def hexString (t : Text) : Option Octets :=
  match t with
  | 'h' :: 'e' :: 'x' :: '"' :: rest =>
    match closedBy '"' rest with
    | some inner => hexPairs inner
    | none => none
  | _ => none

/-- `r<s>`, `w<s>`, `c<s>` with a decimal slot number (30_encoding.md R75). -/
def slotName (t : Text) : Option (SlotArray × Nat) :=
  match t with
  | 'r' :: rest => (numeral 10 rest).map fun n => (.rd, n)
  | 'w' :: rest => (numeral 10 rest).map fun n => (.wr, n)
  | 'c' :: rest => (numeral 10 rest).map fun n => (.cd, n)
  | _ => none

def flagValue (t : Text) : Option Bool :=
  match t with
  | ['0'] => some false
  | ['1'] => some true
  | _ => none

/-- `name=value` (30_encoding.md R75): the four Boolean flags, `base=32|64`, `pad="..."`. -/
def namedArg (name value : Text) : Option Arg :=
  if name = "truncate".toList then (flagValue value).map (.flag .truncate)
  else if name = "force".toList then (flagValue value).map (.flag .force)
  else if name = "prefixed".toList then (flagValue value).map (.flag .prefixed)
  else if name = "strict".toList then (flagValue value).map (.flag .strict)
  else if name = "pad".toList then (quotedString value).map .pad
  else if name = "base".toList then
    if value = "32".toList then some (.base .base32)
    else if value = "64".toList then some (.base .base64)
    else none
  else none

/-- One argument, by its form. -/
def arg (t : Text) : Option Arg :=
  match slotName t with
  | some (array, n) => some (.slot array n)
  | none =>
    match integer t with
    | some n => some (.integer n)
    | none =>
      match byteList t with
      | some b => some (.bytes b)
      | none =>
        match hexString t with
        | some b => some (.bytes b)
        | none =>
          match quotedString t with
          | some b => some (.str b)
          | none => namedArg (t.takeWhile (· ≠ '=')) ((t.dropWhile (· ≠ '=')).drop 1)

/-! ## A line's arguments, sorted by kind -/

/-- What a line supplies, each kind in the order written. -/
structure Args where
  slots    : List (SlotArray × Nat)
  integers : List Int
  bytes    : List Octets
  strs     : List Octets
  flags    : List (FlagName × Bool)
  bases    : List Base
  pads     : List Octets
  deriving DecidableEq, Repr

def Args.empty : Args where
  slots := []
  integers := []
  bytes := []
  strs := []
  flags := []
  bases := []
  pads := []

def Args.add (a : Args) : Arg → Args
  | .slot array n => { a with slots := a.slots ++ [(array, n)] }
  | .integer n => { a with integers := a.integers ++ [n] }
  | .bytes b => { a with bytes := a.bytes ++ [b] }
  | .str b => { a with strs := a.strs ++ [b] }
  | .flag name value => { a with flags := a.flags ++ [(name, value)] }
  | .base b => { a with bases := a.bases ++ [b] }
  | .pad b => { a with pads := a.pads ++ [b] }

/-- The command of a mnemonic and its arguments; an omitted flag or defaulted operand takes the source's default
(30_encoding.md R76), a pseudo-instruction expands to its one command (R77). `none`: not a line of R75. -/
def command (mnemonic : Text) (a : Args) : Option Instr :=
  let name := String.ofList mnemonic
  if name = "MASKBITS" then
    match a with
    | ⟨[], [byte, i0, i1], [], [], [], [], []⟩ => some (.maskbits byte i0 i1)
    | _ => none
  else if name = "PADBITS" then
    match a with
    | ⟨[], [n], [], [s], [], [], []⟩ => some (.padbits s n)
    | _ => none
  else if name = "BYTE2BITS" then
    match a with
    | ⟨[], [byte], [], [], [], [], []⟩ => some (.byte2bits byte 8 true)
    | ⟨[], [byte], [], [], [(.prefixed, f)], [], []⟩ => some (.byte2bits byte 8 f)
    | ⟨[], [byte, n], [], [], [], [], []⟩ => some (.byte2bits byte n true)
    | ⟨[], [byte, n], [], [], [(.prefixed, f)], [], []⟩ => some (.byte2bits byte n f)
    | _ => none
  else if name = "GETBIT" then
    match a with
    | ⟨[], [i], [b], [], [], [], []⟩ => some (.getbit b i)
    | _ => none
  else if name = "RD.NEW" then
    match a with
    | ⟨[(.rd, slot)], [], [b], [], [], [], []⟩ => some (.rdNew slot true b)
    | ⟨[(.rd, slot)], [], [b], [], [(.truncate, f)], [], []⟩ => some (.rdNew slot f b)
    | _ => none
  else if name = "RD.EOF" then
    match a with
    | ⟨[(.rd, slot)], [], [], [], [], [], []⟩ => some (.rdEof slot)
    | _ => none
  else if name = "RD.BITS" then
    match a with
    | ⟨[(.rd, slot)], [n], [], [], [], [], []⟩ => some (.rdBits slot n)
    | _ => none
  else if name = "RD.ALIGN" then
    match a with
    | ⟨[(.rd, slot)], [], [], [], [], [], []⟩ => some (.rdAlign slot false)
    | ⟨[(.rd, slot)], [], [], [], [(.force, f)], [], []⟩ => some (.rdAlign slot f)
    | _ => none
  else if name = "RD.BYTE" then
    match a with
    | ⟨[(.rd, slot)], [], [], [], [], [], []⟩ => some (.rdByte slot)
    | _ => none
  else if name = "RD.SKIP" then
    match a with
    | ⟨[(.rd, slot)], [], [], [], [], [], []⟩ => some (.rdAlign slot true)
    | _ => none
  else if name = "WR.NEW" then
    match a with
    | ⟨[(.wr, slot)], [], [], [], [], [], []⟩ => some (.wrNew slot)
    | _ => none
  else if name = "WR.LEN" then
    match a with
    | ⟨[(.wr, slot)], [], [], [], [], [], []⟩ => some (.wrLen slot)
    | _ => none
  else if name = "WR.BITS" then
    match a with
    | ⟨[(.wr, slot)], [], [], [s], [], [], []⟩ => some (.wrBits slot s)
    | _ => none
  else if name = "WR.BYTE" then
    match a with
    | ⟨[(.wr, slot)], [byte], [], [], [], [], []⟩ => some (.wrByte slot byte)
    | _ => none
  else if name = "WR.PAD" then
    match a with
    | ⟨[(.wr, slot)], [], [], [], [], [], []⟩ => some (.wrPad slot false)
    | ⟨[(.wr, slot)], [], [], [], [(.force, f)], [], []⟩ => some (.wrPad slot f)
    | _ => none
  else if name = "WR.POP" then
    match a with
    | ⟨[(.wr, slot)], [n], [], [], [], [], []⟩ => some (.wrPop slot n)
    | _ => none
  else if name = "WR.FIN" then
    match a with
    | ⟨[(.wr, slot)], [], [], [], [], [], []⟩ => some (.wrFin slot true)
    | ⟨[(.wr, slot)], [], [], [], [(.force, f)], [], []⟩ => some (.wrFin slot f)
    | _ => none
  else if name = "WR.FINRAW" then
    match a with
    | ⟨[(.wr, slot)], [], [], [], [], [], []⟩ => some (.wrFin slot false)
    | _ => none
  else if name = "CD.NEW" then
    match a with
    | ⟨[(.cd, slot)], [], [], [s], [], [b], pads⟩ =>
      if pads.length ≤ 1 then some (.cdNew slot b false s pads.head?) else none
    | ⟨[(.cd, slot)], [], [], [s], [(.strict, f)], [b], pads⟩ =>
      if pads.length ≤ 1 then some (.cdNew slot b f s pads.head?) else none
    | _ => none
  else if name = "CD.NEW32" then
    match a with
    | ⟨[(.cd, slot)], [], [], [], [], [], []⟩ =>
      some (.cdNew slot .base32 false Parameters.base32Alphabet (some [Parameters.defaultPad]))
    | _ => none
  else if name = "CD.NEW64" then
    match a with
    | ⟨[(.cd, slot)], [], [], [], [], [], []⟩ =>
      some (.cdNew slot .base64 false Parameters.base64Alphabet (some [Parameters.defaultPad]))
    | _ => none
  else if name = "CD.ENCRAW" then
    match a with
    | ⟨[(.cd, slot)], [], [b], [], [], [], []⟩ => some (.cdEncraw slot b)
    | _ => none
  else if name = "CD.ENC" then
    match a with
    | ⟨[(.cd, slot)], [], [b], [], [], [], []⟩ => some (.cdEnc slot b)
    | _ => none
  else if name = "CD.DECRAW" then
    match a with
    | ⟨[(.cd, slot)], [], [], [s], [], [], []⟩ => some (.cdDecraw slot s)
    | _ => none
  else if name = "CD.DEC" then
    match a with
    | ⟨[(.cd, slot)], [], [], [s], [], [], []⟩ => some (.cdDec slot s)
    | _ => none
  else if name = "CD.VALID" then
    match a with
    | ⟨[(.cd, slot)], [], [], [s], [], [], []⟩ => some (.cdValid slot s)
    | _ => none
  else if name = "ENC32" then
    match a with
    | ⟨[], [], [b], [], [], [], []⟩ => some (.enc32 b)
    | _ => none
  else if name = "DEC32" then
    match a with
    | ⟨[], [], [], [s], [], [], []⟩ => some (.dec32 s)
    | _ => none
  else if name = "VALID32" then
    match a with
    | ⟨[], [], [], [s], [], [], []⟩ => some (.valid32 s)
    | _ => none
  else if name = "ENC64" then
    match a with
    | ⟨[], [], [b], [], [], [], []⟩ => some (.enc64 b)
    | _ => none
  else if name = "DEC64" then
    match a with
    | ⟨[], [], [], [s], [], [], []⟩ => some (.dec64 s)
    | _ => none
  else if name = "VALID64" then
    match a with
    | ⟨[], [], [], [s], [], [], []⟩ => some (.valid64 s)
    | _ => none
  else none

/-- One line of assembly, with or without its result, to its command (30_encoding.md R75 to R77); the slot number must
fit the header. The mnemonic ends at the first space. -/
def assemble (line : String) : Option Instr :=
  let t := trim (beforeResult false line.toList)
  match all? arg (pieces (t.dropWhile (· ≠ ' '))) with
  | none => none
  | some args =>
    match command (t.takeWhile (· ≠ ' ')) (args.foldl Args.add Args.empty) with
    | none => none
    | some i => if i.wellFormed then some i else none

/-! ## Showing a response -/

def errorName : ErrorKind → String
  | .invalidArgument => "InvalidArgument"
  | .endOfBuffer => "EndOfBuffer"
  | .invalidFormat => "InvalidFormat"
  | .illegalCommand => "IllegalCommand"
  | .noInstance => "NoInstance"

/-- `[b0, b1, ...]` in decimal. -/
def showOctets (b : Octets) : String :=
  "[" ++ String.intercalate ", " (b.map fun c => toString c.toNat) ++ "]"

/-- `"..."`. -/
def showStr (b : Octets) : String :=
  "\"" ++ String.ofList (b.map fun c => Char.ofNat c.toNat) ++ "\""

/-- What stands after `->` (30_encoding.md R75, 95_test_vectors.md notation): the result, written by the command's
result column, or the error kind; nothing where the command has no result. -/
def showResponse (i : Instr) : Response → String
  | .error kind => errorName kind
  | .ok none => ""
  | .ok (some (.value n)) => toString n
  | .ok (some (.octets b)) => if i.resultKind = .str then showStr b else showOctets b

end Sys2Proof.Machine.Assembler
end

