-- ==== Sys2Proof/Safety.lean ====
section
/-! DEFINITION. What a legal state is, what the spec allows a command to answer, and the words the statements are written
in: the bit stream of a byte array, the content of a slot, and what it means that a string encodes or decodes. -/

namespace Sys2Proof.Machine

/-! ## The invariant -/

/-- `0 <= bitPosition <= 8*len(buffer)` (10_state.md R21). -/
def Reader.Inv (r : Reader) : Prop := r.bitPosition ≤ 8 * r.buffer.length

/-- What construction checked of a codec (10_state.md R25). -/
structure Codec.Inv (c : Codec) : Prop where
  size     : c.alphabet.length = alphabetSize c.base
  distinct : c.alphabet.Pairwise fun a b => charKey c.base a ≠ charKey c.base b
  pad      : ∀ pc, c.padChar = some pc → pc ∉ c.alphabet

/-- A legal state: 1 to 16 slots in each array (00_scope.md R4), every reader and every codec legal. A writer and a
response are legal by their types (10_state.md R23, 30_encoding.md R69). -/
structure State.Inv (s : State) : Prop where
  readerSlots : 1 ≤ s.rd.length ∧ s.rd.length ≤ 16
  writerSlots : 1 ≤ s.wr.length ∧ s.wr.length ≤ 16
  codecSlots  : 1 ≤ s.cd.length ∧ s.cd.length ≤ 16
  readers     : ∀ r, some r ∈ s.rd → r.Inv
  codecs      : ∀ c, some c ∈ s.cd → c.Inv

/-! ## Slots -/

/-- The content of one slot of any array. -/
inductive SlotContent where
  | reader (r : Option (Option Reader))
  | writer (w : Option (Option Writer))
  | codec  (c : Option (Option Codec))
  deriving DecidableEq, Repr

/-- What `RD[k]`, `WR[k]` or `CD[k]` holds: nothing where the machine has no such slot, Empty, or an instance. -/
def State.slotAt (s : State) (array : SlotArray) (k : Nat) : SlotContent :=
  match array with
  | .rd => .reader s.rd[k]?
  | .wr => .writer s.wr[k]?
  | .cd => .codec s.cd[k]?

/-- The machine has no such slot (30_encoding.md R64). -/
def State.SlotMissing (s : State) (array : SlotArray) (k : Nat) : Prop :=
  match array with
  | .rd => s.rd.length ≤ k
  | .wr => s.wr.length ≤ k
  | .cd => s.cd.length ≤ k

/-- The slot exists and is Empty (10_state.md R20). -/
def State.SlotEmpty (s : State) (array : SlotArray) (k : Nat) : Prop :=
  match array with
  | .rd => s.rd[k]? = some none
  | .wr => s.wr[k]? = some none
  | .cd => s.cd[k]? = some none

/-- The three arrays have as many slots in one state as in the other. -/
def State.SameCounts (s t : State) : Prop :=
  s.rd.length = t.rd.length ∧ s.wr.length = t.wr.length ∧ s.cd.length = t.cd.length

/-! ## What a command may answer -/

/-- The error kinds each command can raise, other than `IllegalCommand` and `NoInstance`
(60_exceptions.md R202, R203, R204). -/
def ownErrors : Instr → List ErrorKind
  | .maskbits _ _ _ => [.invalidArgument]
  | .padbits _ _ => [.invalidArgument]
  | .byte2bits _ _ _ => [.invalidArgument]
  | .getbit _ _ => [.invalidArgument]
  | .rdNew _ _ _ => []
  | .rdEof _ => []
  | .rdBits _ _ => [.invalidArgument, .endOfBuffer]
  | .rdAlign _ force => if force then [.endOfBuffer] else []
  | .rdByte _ => [.endOfBuffer]
  | .wrNew _ => []
  | .wrLen _ => []
  | .wrBits _ _ => [.invalidArgument]
  | .wrByte _ _ => [.invalidArgument]
  | .wrPad _ _ => []
  | .wrPop _ _ => [.invalidArgument]
  | .wrFin _ _ => []
  | .cdNew _ _ _ _ _ => [.invalidArgument]
  | .cdEncraw _ _ => []
  | .cdEnc _ _ => []
  | .cdDecraw _ _ => [.invalidFormat]
  | .cdDec _ _ => [.invalidFormat]
  | .cdValid _ _ => []
  | .enc32 _ => []
  | .dec32 _ => [.invalidFormat]
  | .valid32 _ => []
  | .enc64 _ => []
  | .dec64 _ => [.invalidFormat]
  | .valid64 _ => []

/-- A result is of the kind the opcode map gives the command (30_encoding.md R63, R68). -/
def Result.HasKind : Option Result → ResultKind → Prop
  | none, kind => kind = .nothing
  | some (.value n), kind => kind = .value ∨ (kind = .bool ∧ n ≤ 1)
  | some (.octets _), kind => kind = .str ∨ kind = .bytes ∨ kind = .syms

/-- A packet that 30_encoding.md R72 calls illegal, said by the mask and match words of the opcode table: (a) no row
selects the header; (b) the row works on an instance and the machine does not have the slot; (c) the row's number of
operand words or of payloads differs. -/
def PacketIllegal (s : State) (pk : Packet) : Prop :=
  (∀ row ∈ opcodeTable, row.selects pk.header = false) ∨
  (∃ row ∈ opcodeTable, row.selects pk.header = true ∧
    (pk.operands.length ≠ row.opcode.operandCount ∨
     pk.payloads.length ≠ row.opcode.payloadCount (pk.header.getLsbD 17) ∨
     (row.opcode.usesSlot = true ∧
      (match (pk.header >>> 28).toNat with
       | 1 => s.rd.length
       | 2 => s.wr.length
       | _ => s.cd.length) ≤ (pk.header >>> 20).toNat % 16)))

/-! ## Bit streams -/

/-- The bits of a byte array in stream order: every byte most significant bit first (20_memory.md R41, 00_scope.md R12). -/
def streamOf (buf : Octets) : Bits := buf.flatMap fun b => toBits b.toNat 8

/-- `w[a : a + m]`. -/
def slice (w : Bits) (a m : Nat) : Bits := (w.drop a).take m

/-- The bits `padToByteBoundary` leaves in a writer (42_bitwriter.md R144, R145). -/
def paddedBits (w : Bits) (force : Bool) : Bits :=
  if w.length % 8 ≠ 0 then w ++ List.replicate (7 - w.length % 8) false ++ [true]
  else if force then w ++ [false, false, false, false, false, false, false, true]
  else w

/-- `WR.BYTE` on one slot for each byte of an array, in order (42_bitwriter.md R148 (3)). -/
def State.writeBytes (k : Nat) : Octets → State → StepOutcome
  | [], s => .next s
  | byte :: rest, s =>
    match exec (.wrByte k byte.toNat) s with
    | .next t => State.writeBytes k rest t
    | .fault r => .fault r
    | .refused r => .refused r

/-! ## Encoding and decoding, declaratively -/

/-- `raw` are the symbols of `bytes`: `ceil(8·len/k)` of them, symbol `i` the stream cut every `k` bits, zero bits after
its end (43_basen_codec.md R163, R181). -/
def IsRawEncoding (base : Base) (bytes : Octets) (raw : List Nat) : Prop :=
  raw.length = (8 * bytes.length + symbolBits base - 1) / symbolBits base ∧
  ∀ i v, raw[i]? = some v →
    v = toNat (slice (streamOf bytes ++ List.replicate 8 false) (i * symbolBits base) (symbolBits base))

/-- `out` is the encoding of `bytes`: each symbol through the alphabet, then, where a pad character is configured, as
few pad characters as reach the group boundary (43_basen_codec.md R164). -/
def IsEncoding (cfg : Codec) (bytes out : Octets) : Prop :=
  ∃ raw chars, IsRawEncoding cfg.base bytes raw ∧
    List.Forall₂ (fun v c => cfg.alphabet[v]? = some c) raw chars ∧
    match cfg.padChar with
    | none => out = chars
    | some pc => ∃ q, out = chars ++ List.replicate q pc ∧ out.length % groupSize cfg.base = 0 ∧
        q < groupSize cfg.base

/-- `e` is accepted with these symbols: a body, then one trailing run of pad characters of a permitted length; the
length rule; every character of the body the image of its symbol and no pad character; the extra bits of the last
symbol zero (43_basen_codec.md R165, R166, R167). -/
def AcceptedAs (cfg : Codec) (e : Octets) (symbols : List Nat) : Prop :=
  ∃ body q,
    (match cfg.padChar with
     | none => q = 0 ∧ e = body
     | some pc => e = body ++ List.replicate q pc ∧ pc ∉ body) ∧
    (q = 0 ∨ q ∈ padRuns cfg.base) ∧
    ((cfg.strict = true ∨ 0 < q) → e.length % groupSize cfg.base = 0) ∧
    List.Forall₂ (fun c v => ∃ a, cfg.alphabet[v]? = some a ∧ charKey cfg.base a = charKey cfg.base c) body symbols ∧
    ∀ last, symbols.getLast? = some last → last % 2 ^ (symbols.length * symbolBits cfg.base % 8) = 0

/-- More bits would be cut from the last symbol than it has (43_basen_codec.md R169). -/
def Overcut (base : Base) (symbols : List Nat) : Prop :=
  symbolBits base < symbols.length * symbolBits base % 8

/-- `out` is the decoding of the symbols: the whole bytes of the concatenated `k`-bit codes (43_basen_codec.md R168). -/
def IsDecoding (base : Base) (symbols : List Nat) (out : Octets) : Prop :=
  out.length = symbols.length * symbolBits base / 8 ∧
  streamOf out = (symbols.flatMap fun v => toBits v (symbolBits base)).take (8 * out.length)

/-- The command decodes the string `e` with the configuration `cfg`. -/
def DecodesWith (s : State) (i : Instr) (cfg : Codec) (e : Octets) : Prop :=
  (∃ slot, i = .cdDec slot e ∧ s.cd[slot]? = some (some cfg)) ∨
  (i = .dec32 e ∧ cfg = defaultBase32) ∨ (i = .dec64 e ∧ cfg = defaultBase64)

/-- The command encodes `bytes` with the configuration `cfg`. -/
def EncodesWith (s : State) (i : Instr) (cfg : Codec) (bytes : Octets) : Prop :=
  (∃ slot, i = .cdEnc slot bytes ∧ s.cd[slot]? = some (some cfg)) ∨
  (i = .enc32 bytes ∧ cfg = defaultBase32) ∨ (i = .enc64 bytes ∧ cfg = defaultBase64)

/-- The command validates the string `e` with the configuration `cfg`. -/
def ValidatesWith (s : State) (i : Instr) (cfg : Codec) (e : Octets) : Prop :=
  (∃ slot, i = .cdValid slot e ∧ s.cd[slot]? = some (some cfg)) ∨
  (i = .valid32 e ∧ cfg = defaultBase32) ∨ (i = .valid64 e ∧ cfg = defaultBase64)

end Sys2Proof.Machine
end

