-- ==== Sys2Proof/Certificates/Slice0/Obligations.lean ====
section
/-! DEFINITION. The statements about the model, for the provers. Each says in its docstring which rule of spec/ it
formalises; where a clause rests on the spec's own decision D<n> or on a log entry of the model, the docstring names it.
A next state written as a record update of `s` is the whole frame: every field not named is unchanged. -/

open Sys2Proof Sys2Proof.Machine

/-! ## Encoding and one step -/

/-- Decoding the packet of a well-formed command gives the command back, every operand, payload, slot and flag at every
value (30_encoding.md R60 to R68, the spec's decisions D2 to D5 and D28). -/
def Obligations.DecodingAnEncodedCommandGivesItBack : Prop :=
  ∀ i : Instr, i.WellFormed → decode (encode i) = .ok i

/-- A packet that decodes is the encoding of the command it decodes to, so a packet has one meaning and no bit of it
is ignored (30_encoding.md R61, R65, R72; decision D3, "unused-must-be-zero keeps every packet's meaning unique"). -/
def Obligations.DecodedPacketIsTheEncodingOfItsCommand : Prop :=
  ∀ (pk : Packet) (i : Instr), decode pk = .ok i → i.WellFormed ∧ encode i = pk

/-- The opcode table's mask and match words select exactly the row that the header's fields select, every header the
fields accept has its row, no two rows select one header, and each mask is the base mask with the bits of the unused
fields added (30_encoding.md R80, decision D3). -/
def Obligations.OpcodeTableAgreesWithTheHeaderFields : Prop :=
  (∀ h : BitVec 32, ∀ row ∈ opcodeTable, row.selects h = true ↔ decodeOpcode h = .ok row.opcode) ∧
  (∀ (h : BitVec 32) (op : Opcode), decodeOpcode h = .ok op →
    ∃ row ∈ opcodeTable, row.opcode = op ∧ row.selects h = true) ∧
  (∀ h : BitVec 32, ∀ row₁ ∈ opcodeTable, ∀ row₂ ∈ opcodeTable,
    row₁.selects h = true → row₂.selects h = true → row₁ = row₂) ∧
  (∀ row ∈ opcodeTable, row.mask =
    0xFF08FFFF#32 ||| (if row.opcode.usesSlot then 0#32 else 0x00F00000#32)
      ||| (if row.opcode.usesF then 0#32 else 0x00010000#32)
      ||| (if row.opcode.usesP then 0#32 else 0x00020000#32)
      ||| (if row.opcode = .cdNew then 0#32 else 0x00040000#32))

/-- A packet that 30_encoding.md R72 calls illegal, said by the opcode table's mask and match words, is answered
`IllegalCommand` and changes no slot; no other packet is (decision D27). -/
def Obligations.IllegalPacketIsAnsweredAndChangesNoSlot : Prop :=
  ∀ (s : State) (pk : Packet) (rest : List Packet), s.commands = pk :: rest →
    (PacketIllegal s pk →
      step s = .next { s with commands := rest, response := some (.error .illegalCommand) }) ∧
    (¬ PacketIllegal s pk →
      ∀ t, step s = .next t → t.response ≠ some (.error .illegalCommand))

/-- A step takes the host's next packet and, where it decodes to a command, is that command's execution in the state
with the packet taken off the host's list (30_encoding.md R60, 20_memory.md R50; the list is log entry 1). -/
def Obligations.StepExecutesTheDecodedCommand : Prop :=
  ∀ (s : State) (pk : Packet) (rest : List Packet) (i : Instr),
    s.commands = pk :: rest → decode pk = .ok i → step s = exec i { s with commands := rest }

/-- When the host has no command left, a step changes nothing. This is the model's choice (log entry 3) for
10_state.md R30, "A run's "end" is the host issuing no further command". -/
def Obligations.NoCommandNoChange : Prop :=
  ∀ s : State, s.commands = [] → step s = .next s

/-- The worked encodings of 30_encoding.md section 9, its fifteen legal rows and its four illegal words in its order:
each legal packet decodes to the command it stands for, the two `CD.NEW` rows with any alphabet in the payload; each
illegal word is rejected for the reason the section gives, whatever operands and payloads follow it. -/
def Obligations.WorkedEncodingsDecode : Prop :=
  decode ⟨0x00000000, [181, 2, 5], []⟩ = .ok (.maskbits 0xB5 2 5) ∧
  decode ⟨0x02010000, [7, 8], []⟩ = .ok (.byte2bits 7 8 true) ∧
  decode ⟨0x10010000, [], [[0xFF]]⟩ = .ok (.rdNew 0 true [255]) ∧
  decode ⟨0x10100000, [], [[0xFF, 0xFF]]⟩ = .ok (.rdNew 1 false [255, 255]) ∧
  decode ⟨0x12000000, [3], []⟩ = .ok (.rdBits 0 3) ∧
  decode ⟨0x13010000, [], []⟩ = .ok (.rdAlign 0 true) ∧
  decode ⟨0x23000000, [7], []⟩ = .ok (.wrByte 0 7) ∧
  decode ⟨0x25000000, [3], []⟩ = .ok (.wrPop 0 3) ∧
  decode ⟨0x26000000, [], []⟩ = .ok (.wrFin 0 false) ∧
  decode ⟨0x26010000, [], []⟩ = .ok (.wrFin 0 true) ∧
  (∀ alphabet : Octets,
    decode ⟨0x30020000, [], [alphabet, [0x3D]]⟩ = .ok (.cdNew 0 .base32 false alphabet (some [0x3D]))) ∧
  (∀ alphabet : Octets, decode ⟨0x30050000, [], [alphabet]⟩ = .ok (.cdNew 0 .base64 true alphabet none)) ∧
  decode ⟨0x34200000, [], [[0x6D, 0x79]]⟩ = .ok (.cdDec 2 [0x6D, 0x79]) ∧
  decode ⟨0x38000000, [], [[0x66]]⟩ = .ok (.enc32 [0x66]) ∧
  decode ⟨0x39040000, [], [[0x46, 0x50, 0x75, 0x63, 0x41, 0x77, 0x3D, 0x3D]]⟩
    = .ok (.dec64 [0x46, 0x50, 0x75, 0x63, 0x41, 0x77, 0x3D, 0x3D]) ∧
  (∀ (operands : List Int) (payloads : List Octets),
    decode ⟨0x12000001, operands, payloads⟩ = .error .reservedBit ∧
    decode ⟨0x11010000, operands, payloads⟩ = .error .unusedFlag ∧
    decode ⟨0x40000000, operands, payloads⟩ = .error .reservedUnit ∧
    decode ⟨0x38100000, operands, payloads⟩ = .error .slotNotZero)

/-! ## Reset and the invariant -/

/-- After reset every slot of every array is Empty, for every slot count the spec leaves open (10_state.md R31,
70_reset_and_hazards.md R230, decision D23); that `State.reset` has 16 slots in each array is the model's choice
(log entry 4), and so are the empty command list and the absent response (log entries 1 and 2). -/
def Obligations.ResetLeavesEverySlotEmpty : Prop :=
  (∀ (nr nw nc : Nat) (array : SlotArray) (k : Nat),
    ((State.resetWith nr nw nc).SlotEmpty array k ↔
      k < match array with | .rd => nr | .wr => nw | .cd => nc) ∧
    ((State.resetWith nr nw nc).SlotEmpty array k ∨ (State.resetWith nr nw nc).SlotMissing array k)) ∧
  State.reset = State.resetWith 16 16 16 ∧ State.reset.commands = [] ∧ State.reset.response = none

/-- The invariant holds at reset, for every slot count in 1..16, and the two default codecs are legal
(10_state.md R31, R26; 00_scope.md R4, decision D17). -/
def Obligations.ResetMeetsTheInvariant : Prop :=
  (∀ nr nw nc : Nat, 1 ≤ nr → nr ≤ 16 → 1 ≤ nw → nw ≤ 16 → 1 ≤ nc → nc ≤ 16 →
    (State.resetWith nr nw nc).Inv) ∧
  State.reset.Inv ∧ defaultBase32.Inv ∧ defaultBase64.Inv

/-- Every step keeps the invariant: `0 <= bitPosition <= 8*len(buffer)` for every reader (10_state.md R21), a legal
alphabet and pad character for every codec (R25), and the number of slots (00_scope.md R4). -/
def Obligations.EveryStepKeepsTheInvariant : Prop :=
  ∀ s t : State, s.Inv → step s = .next t → t.Inv

/-! ## Rules about every command -/

/-- A command that ends in an error changes nothing: every slot holds what it held, and the response carries the error
kind alone (60_exceptions.md R209, R207; decision D10). -/
def Obligations.FailingCommandChangesOnlyTheResponse : Prop :=
  ∀ (i : Instr) (s t : State) (kind : ErrorKind),
    exec i s = .next t → t.response = some (.error kind) → t = { s with response := some (.error kind) }

/-- After a failing command the next command executes exactly as if the failing one had never been issued, and the same
command fails identically (60_exceptions.md R211, R212; decision D10). -/
def Obligations.FailedCommandLeavesNoTrace : Prop :=
  ∀ (i : Instr) (s t : State) (kind : ErrorKind),
    exec i s = .next t → t.response = some (.error kind) →
      (∀ j : Instr, exec j t = exec j s) ∧ exec i t = .next t

/-- A command has exactly one of three outcomes: an OK response, an error response, or the refusal of
43_basen_codec.md R169; it never faults, and it takes nothing off the host's list (00_scope.md R10, 60_exceptions.md
R218; decisions D11 and D22). -/
def Obligations.EveryCommandAnswersOrIsTheOneRefusal : Prop :=
  ∀ (i : Instr) (s : State),
    (∃ t response, exec i s = .next t ∧ t.response = some response ∧ t.commands = s.commands) ∨
    (exec i s = .refused .decodeOvercut ∧
      ∃ cfg e symbols, DecodesWith s i cfg e ∧ AcceptedAs cfg e symbols ∧ Overcut cfg.base symbols)

/-- `CD.DEC`, `DEC32` and `DEC64` are refused exactly on the accepted strings whose last symbol has fewer bits than are
to be cut; such a string is base32, has 3 or 6 symbols modulo 8, a last symbol 0, no pad character, and the codec is
not strict (43_basen_codec.md R169; decision D22, log entry 6). -/
def Obligations.RefusalIsExactlyTheOvercut : Prop :=
  ∀ (i : Instr) (s : State) (cfg : Codec) (e : Octets), cfg.Inv → DecodesWith s i cfg e →
    ((∃ why, exec i s = .refused why) ↔ ∃ symbols, AcceptedAs cfg e symbols ∧ Overcut cfg.base symbols) ∧
    (∀ symbols, AcceptedAs cfg e symbols → Overcut cfg.base symbols →
      cfg.base = .base32 ∧ (symbols.length % 8 = 3 ∨ symbols.length % 8 = 6) ∧ symbols.getLast? = some 0 ∧
      cfg.strict = false ∧ ∀ pc, cfg.padChar = some pc → pc ∉ e)

/-- In a legal state, besides `IllegalCommand` and `NoInstance`, a command raises only the error kinds the spec lists
for it (60_exceptions.md R202, R203, R204). -/
def Obligations.CommandRaisesOnlyItsOwnErrors : Prop :=
  ∀ (i : Instr) (s t : State) (kind : ErrorKind),
    s.Inv → exec i s = .next t → t.response = some (.error kind) →
      kind ∈ ownErrors i ∨ kind = .illegalCommand ∨ kind = .noInstance

/-- A command that works on an instance and names an Empty slot is answered `NoInstance` and changes nothing;
`NoInstance` is answered in no other case, so never by a constructing, a BitOps or a default-codec command
(60_exceptions.md R206; decision D8). -/
def Obligations.EmptySlotIsAnsweredNoInstance : Prop :=
  (∀ (i : Instr) (s : State) (array : SlotArray) (k : Nat),
    i.slotRef = some (array, k) → i.isConstructor = false → s.SlotEmpty array k →
      exec i s = .next { s with response := some (.error .noInstance) }) ∧
  (∀ (i : Instr) (s t : State), exec i s = .next t → t.response = some (.error .noInstance) →
    i.isConstructor = false ∧ ∃ array k, i.slotRef = some (array, k) ∧ s.SlotEmpty array k)

/-- A command that names a slot the machine does not have is answered `IllegalCommand` and changes nothing, and a
decoded command is answered `IllegalCommand` in no other case (30_encoding.md R64, R72 (b), 60_exceptions.md R208;
decisions D7, D11, D27). -/
def Obligations.MissingSlotIsAnsweredIllegalCommand : Prop :=
  (∀ (i : Instr) (s : State) (array : SlotArray) (k : Nat),
    i.slotRef = some (array, k) → s.SlotMissing array k →
      exec i s = .next { s with response := some (.error .illegalCommand) }) ∧
  (∀ (i : Instr) (s t : State), exec i s = .next t → t.response = some (.error .illegalCommand) →
    ∃ array k, i.slotRef = some (array, k) ∧ s.SlotMissing array k)

/-- A command writes its own slot only: every other slot of every array keeps its content, and the number of slots
stays (10_state.md R33). -/
def Obligations.CommandWritesOnlyItsOwnSlot : Prop :=
  ∀ (i : Instr) (s t : State), exec i s = .next t →
    s.SameCounts t ∧
    ∀ (array : SlotArray) (k : Nat), i.slotRef ≠ some (array, k) → t.slotAt array k = s.slotAt array k

/-- A command reads its own slot only: in two states that agree on that slot it gives the same response and the same
new content of the slot, or is refused in both (10_state.md R33, R55 of 20_memory.md). -/
def Obligations.CommandReadsOnlyItsOwnSlot : Prop :=
  ∀ (i : Instr) (s₁ s₂ : State),
    (∀ array k, i.slotRef = some (array, k) → s₁.slotAt array k = s₂.slotAt array k) →
      (∀ t₁, exec i s₁ = .next t₁ → ∃ t₂, exec i s₂ = .next t₂ ∧ t₂.response = t₁.response ∧
        ∀ array k, i.slotRef = some (array, k) → t₂.slotAt array k = t₁.slotAt array k) ∧
      (∀ why, exec i s₁ = .refused why → exec i s₂ = .refused why)

/-- No command reads the host's list or the last response: with other values there, it does the same
(10_state.md R29, "Every command returns its status in its own response and the status is not kept"; decision D24). -/
def Obligations.HostSideIsNeverRead : Prop :=
  ∀ (i : Instr) (s : State) (commands : List Packet) (response : Option Response),
    (∀ t, exec i s = .next t →
      exec i { s with commands := commands, response := response } = .next { t with commands := commands }) ∧
    (∀ why, exec i s = .refused why →
      exec i { s with commands := commands, response := response } = .refused why)

/-- An OK response carries the kind of result the opcode map gives the command; a Boolean result is 0 or 1; every
raw symbol of `CD.ENCRAW` and of `CD.DECRAW` is below the alphabet's length (30_encoding.md R63, R68; decision D28). -/
def Obligations.ResultIsOfTheCommandsKind : Prop :=
  (∀ (i : Instr) (s t : State) (result : Option Result),
    exec i s = .next t → t.response = some (.ok result) → Result.HasKind result i.resultKind) ∧
  (∀ (slot : Nat) (payload symbols : Octets) (cfg : Codec) (s t : State),
    s.cd[slot]? = some (some cfg) → cfg.Inv →
    (exec (.cdEncraw slot payload) s = .next t ∨ exec (.cdDecraw slot payload) s = .next t) →
    t.response = some (.ok (some (.octets symbols))) → ∀ v ∈ symbols, v.toNat < alphabetSize cfg.base)

/-- A reader's buffer and truncate flag are written only by construction, which sets its position to 0; only `RD.BITS`,
`RD.BYTE` and `RD.ALIGN` on its slot move the position, and never back (10_state.md R22). -/
def Obligations.ReaderFieldsChangeOnlyAsAllowed : Prop :=
  (∀ (i : Instr) (s t : State) (k : Nat) (r : Reader),
    exec i s = .next t → s.rd[k]? = some (some r) → (∀ truncate bytes, i ≠ .rdNew k truncate bytes) →
      ∃ r', t.rd[k]? = some (some r') ∧ r'.buffer = r.buffer ∧ r'.truncate = r.truncate ∧
        r.bitPosition ≤ r'.bitPosition ∧
        (r'.bitPosition ≠ r.bitPosition →
          (∃ n, i = .rdBits k n) ∨ i = .rdByte k ∨ ∃ force, i = .rdAlign k force)) ∧
  (∀ (s t : State) (k : Nat) (truncate : Bool) (bytes : Octets),
    exec (.rdNew k truncate bytes) s = .next t → k < s.rd.length →
      t.rd[k]? = some (some { buffer := bytes, bitPosition := 0, truncate := truncate }))

/-- The codec unit is pure: no command of it reads or changes a reader or writer slot, none but `CD.NEW` changes a codec
slot, and two executions with the same configurations give the same response (43_basen_codec.md R180; decision D14). -/
def Obligations.CodecCommandsArePure : Prop :=
  ∀ i : Instr, ((∃ k, i.slotRef = some (.cd, k)) ∨ (∃ payload, i = .enc32 payload ∨ i = .dec32 payload ∨
      i = .valid32 payload ∨ i = .enc64 payload ∨ i = .dec64 payload ∨ i = .valid64 payload)) →
    (∀ s t : State, exec i s = .next t → t.rd = s.rd ∧ t.wr = s.wr ∧ (i.isConstructor = false → t.cd = s.cd)) ∧
    (∀ s₁ s₂ t₁ : State, s₁.cd = s₂.cd → exec i s₁ = .next t₁ →
      ∃ t₂, exec i s₂ = .next t₂ ∧ t₂.response = t₁.response ∧ t₂.cd = t₁.cd)

/-! ## BitOps -/

/-- `MASKBITS` returns the bits `[i0, i1)` of the byte, index 0 the most significant, right-aligned: the number those
bits of the byte's stream write; anything outside the constraints is `InvalidArgument` (40_bitops.md R100). -/
def Obligations.MaskbitsReturnsTheSliceOfTheByte : Prop :=
  ∀ (byte i0 i1 : Int) (s : State),
    (0 ≤ byte → byte ≤ 255 → 0 ≤ i0 → i0 < i1 → i1 ≤ 8 →
      ∃ v : Nat, exec (.maskbits byte i0 i1) s = .next { s with response := some (.ok (some (.value v))) } ∧
        v = (byte.toNat / 2 ^ (8 - i1.toNat)) % 2 ^ (i1.toNat - i0.toNat) ∧
        v = toNat (slice (toBits byte.toNat 8) i0.toNat (i1.toNat - i0.toNat)) ∧ v < 2 ^ (i1.toNat - i0.toNat)) ∧
    (¬ (0 ≤ byte ∧ byte ≤ 255 ∧ 0 ≤ i0 ∧ i0 < i1 ∧ i1 ≤ 8) →
      exec (.maskbits byte i0 i1) s = .next { s with response := some (.error .invalidArgument) })

/-- `PADBITS` puts zeros on the left: as few as make the length a positive multiple of `n`; `n ≤ 0` is
`InvalidArgument`; the characters are not checked (40_bitops.md R101). That the empty string becomes `n` zeros is the
spec's decision D18 (parameter PADBITS_EMPTY, log entry 7). -/
def Obligations.PadbitsPadsToTheLeastPositiveMultiple : Prop :=
  ∀ (bitString : Octets) (n : Int) (s : State),
    (0 < n → ∃ q : Nat,
      exec (.padbits bitString n) s =
        .next { s with response := some (.ok (some (.octets (List.replicate q 0x30#8 ++ bitString)))) } ∧
      0 < q + bitString.length ∧ n.toNat ∣ q + bitString.length ∧
      ∀ p : Nat, 0 < p + bitString.length → n.toNat ∣ p + bitString.length → q ≤ p) ∧
    (n ≤ 0 → exec (.padbits bitString n) s = .next { s with response := some (.error .invalidArgument) })

/-- `BYTE2BITS` answers the binary numeral of the byte with exactly `n` digits, most significant first, after `0b` where
`prefixed`; it fails where `n` digits do not hold the byte or no digit is asked (40_bitops.md R102; decision D19). -/
def Obligations.Byte2bitsWritesTheNumeral : Prop :=
  ∀ (byte n : Int) (prefixed : Bool) (s : State),
    (0 ≤ byte → byte ≤ 255 → 1 ≤ n → byte < 2 ^ n.toNat → ∃ digits : Bits,
      exec (.byte2bits byte n prefixed) s = .next { s with response := some (.ok (some (.octets
        (if prefixed then 0x30#8 :: 0x62#8 :: str digits else str digits)))) } ∧
      digits.length = n.toNat ∧ (toNat digits : Int) = byte) ∧
    (byte < 0 ∨ 255 < byte ∨ n < 1 ∨ 2 ^ n.toNat ≤ byte →
      exec (.byte2bits byte n prefixed) s = .next { s with response := some (.error .invalidArgument) })

/-- `GETBIT` numbers the bits of a byte from the least significant: in stream numbering it returns bit
`8·(i div 8) + 7 - i mod 8` (40_bitops.md R103, 20_memory.md R43); an index outside the array is `InvalidArgument`
(decision D20). -/
def Obligations.GetbitNumbersFromTheLeastSignificantBit : Prop :=
  ∀ (bytes : Octets) (i : Int) (s : State),
    (∀ k : Nat, i = k → k < 8 * bytes.length → ∃ b : Bool,
      exec (.getbit bytes i) s = .next { s with response := some (.ok (some (.value b.toNat))) } ∧
      (∀ byte, bytes[k / 8]? = some byte → b.toNat = byte.toNat / 2 ^ (k % 8) % 2) ∧
      (streamOf bytes)[8 * (k / 8) + 7 - k % 8]? = some b) ∧
    (i < 0 ∨ (8 * bytes.length : Int) ≤ i →
      exec (.getbit bytes i) s = .next { s with response := some (.error .invalidArgument) })

/-- A complete read that lies inside one byte returns what `MASKBITS` returns of that byte (40_bitops.md R104). -/
def Obligations.ReadInsideAByteIsMaskbits : Prop :=
  ∀ (s : State) (k n : Nat) (r : Reader) (byte : Byte),
    s.rd[k]? = some (some r) → 1 ≤ n → r.bitPosition % 8 + n ≤ 8 → r.buffer[r.bitPosition / 8]? = some byte →
      ∃ t u, exec (.rdBits k n) s = .next t ∧
        exec (.maskbits byte.toNat (r.bitPosition % 8 : Nat) (r.bitPosition % 8 + n : Nat)) s = .next u ∧
        t.response = u.response

/-! ## BitReader -/

/-- `RD.NEW` and `WR.NEW` put a fresh instance into their slot and change no other field: a reader with the given bytes
at position 0, a writer with no bits (41_bitreader.md R120, 42_bitwriter.md R140); that they replace what the slot held
is the spec's decision D29. -/
def Obligations.NewReaderAndWriterFillTheirSlot : Prop :=
  (∀ (s : State) (k : Nat) (truncate : Bool) (bytes : Octets), k < s.rd.length →
    exec (.rdNew k truncate bytes) s = .next { s with
      rd := s.rd.set k (some { buffer := bytes, bitPosition := 0, truncate := truncate }),
      response := some (.ok none) }) ∧
  (∀ (s : State) (k : Nat), k < s.wr.length →
    exec (.wrNew k) s = .next { s with wr := s.wr.set k (some { bits := [] }), response := some (.ok none) })

/-- `RD.EOF` answers 1 when the position's byte index is the buffer's length or more, else 0, and changes nothing; for a
legal reader that is exactly when no bit remains (41_bitreader.md R121). -/
def Obligations.RdEofTellsWhetherNoBitRemains : Prop :=
  ∀ (s : State) (k : Nat) (r : Reader), s.rd[k]? = some (some r) → ∃ b : Bool,
    exec (.rdEof k) s = .next { s with response := some (.ok (some (.value b.toNat))) } ∧
    (b = true ↔ r.buffer.length ≤ r.bitPosition / 8) ∧
    (r.Inv → (b = true ↔ r.bitPosition = 8 * r.buffer.length))

/-- `RD.BITS` reads the next `m = min(n, remaining)` bits of the buffer's stream as a big-endian number and advances the
position by `m`; a short read gives them as the low bits in truncate mode and as the high bits of `n` otherwise; `n`
outside 1..8 is `InvalidArgument`, and no bit remaining is `EndOfBuffer` (41_bitreader.md R122, 20_memory.md R42;
conflict C6). That the argument is tested first is the spec's decision D11, `n < 1` its decision D12. -/
def Obligations.RdBitsReadsTheStream : Prop :=
  ∀ (s : State) (k : Nat) (n : Int) (r : Reader), s.rd[k]? = some (some r) → r.Inv →
    (n < 1 ∨ 8 < n → exec (.rdBits k n) s = .next { s with response := some (.error .invalidArgument) }) ∧
    (1 ≤ n → n ≤ 8 → r.bitPosition = 8 * r.buffer.length →
      exec (.rdBits k n) s = .next { s with response := some (.error .endOfBuffer) }) ∧
    (1 ≤ n → n ≤ 8 → r.bitPosition < 8 * r.buffer.length →
      ∃ m v : Nat, m = min n.toNat (8 * r.buffer.length - r.bitPosition) ∧
        v = toNat (slice (streamOf r.buffer) r.bitPosition m) ∧
        exec (.rdBits k n) s = .next { s with
          rd := s.rd.set k (some { r with bitPosition := r.bitPosition + m }),
          response := some (.ok (some (.value (if r.truncate then v else v * 2 ^ (n.toNat - m))))) })

/-- After an OK `RD.BITS` the position has grown by 1 to 8 bits and is in the buffer; the result is below `2^m` in
truncate mode, below `2^n` with its low `n - m` bits zero otherwise (41_bitreader.md R123 (1) and (2)). -/
def Obligations.RdBitsResultIsBounded : Prop :=
  ∀ (s t : State) (k : Nat) (n : Int) (r : Reader) (v : Nat),
    s.rd[k]? = some (some r) → r.Inv → exec (.rdBits k n) s = .next t →
    t.response = some (.ok (some (.value v))) →
      ∃ (m : Nat) (r' : Reader), t.rd[k]? = some (some r') ∧ r'.bitPosition = r.bitPosition + m ∧ r'.Inv ∧
        1 ≤ m ∧ m ≤ 8 ∧ (m : Int) ≤ n ∧
        (r.truncate = true → v < 2 ^ m) ∧ (r.truncate = false → v < 2 ^ n.toNat ∧ 2 ^ (n.toNat - m) ∣ v)

/-- Two complete reads of `a` then `b` bits, together at most 8, give the value one read of `a + b` bits gives, and
leave the reader at the same place (41_bitreader.md R123 (3), 20_memory.md R45). -/
def Obligations.TwoCompleteReadsCompose : Prop :=
  ∀ (s : State) (k a b : Nat) (r : Reader),
    s.rd[k]? = some (some r) → 1 ≤ a → 1 ≤ b → a + b ≤ 8 → r.bitPosition + a + b ≤ 8 * r.buffer.length →
      ∃ (t u w : State) (va vb : Nat),
        exec (.rdBits k a) s = .next t ∧ t.response = some (.ok (some (.value va))) ∧
        exec (.rdBits k b) t = .next u ∧ u.response = some (.ok (some (.value vb))) ∧
        exec (.rdBits k (a + b : Nat)) s = .next w ∧
        w.response = some (.ok (some (.value (va * 2 ^ b + vb)))) ∧ w.rd = u.rd

/-- `RD.ALIGN` moves an unaligned position to the next multiple of 8, whatever `force` is; an aligned position is kept
without `force` and moves by a whole byte with it, or answers `EndOfBuffer` at the end (41_bitreader.md R124). -/
def Obligations.RdAlignMovesToTheByteBoundary : Prop :=
  ∀ (s : State) (k : Nat) (force : Bool) (r : Reader), s.rd[k]? = some (some r) → r.Inv →
    (r.bitPosition % 8 ≠ 0 → exec (.rdAlign k force) s = .next { s with
      rd := s.rd.set k (some { r with bitPosition := r.bitPosition + 8 - r.bitPosition % 8 }),
      response := some (.ok none) }) ∧
    (r.bitPosition % 8 = 0 → force = false →
      exec (.rdAlign k force) s = .next { s with response := some (.ok none) }) ∧
    (r.bitPosition % 8 = 0 → force = true → r.bitPosition < 8 * r.buffer.length →
      exec (.rdAlign k force) s = .next { s with
        rd := s.rd.set k (some { r with bitPosition := r.bitPosition + 8 }),
        response := some (.ok none) }) ∧
    (r.bitPosition % 8 = 0 → force = true → r.bitPosition = 8 * r.buffer.length →
      exec (.rdAlign k force) s = .next { s with response := some (.error .endOfBuffer) })

/-- `RD.BYTE` does in every state what `RD.BITS` with `n = 8` does (41_bitreader.md R125): it reads up to 8 bits at any
position, short at the end, and at an aligned position inside the buffer it returns that byte and moves past it
(R123 (4)). -/
def Obligations.RdByteIsRdBitsEight : Prop :=
  (∀ (s : State) (k : Nat), exec (.rdByte k) s = exec (.rdBits k 8) s) ∧
  (∀ (s : State) (k : Nat) (r : Reader), s.rd[k]? = some (some r) → r.bitPosition < 8 * r.buffer.length →
    ∃ m v : Nat, m = min 8 (8 * r.buffer.length - r.bitPosition) ∧
      v = toNat (slice (streamOf r.buffer) r.bitPosition m) ∧
      exec (.rdByte k) s = .next { s with
        rd := s.rd.set k (some { r with bitPosition := r.bitPosition + m }),
        response := some (.ok (some (.value (if r.truncate then v else v * 2 ^ (8 - m))))) }) ∧
  (∀ (s : State) (k j : Nat) (r : Reader) (byte : Byte),
    s.rd[k]? = some (some r) → r.bitPosition = 8 * j → r.buffer[j]? = some byte →
      exec (.rdByte k) s = .next { s with
        rd := s.rd.set k (some { r with bitPosition := 8 * (j + 1) }),
        response := some (.ok (some (.value byte.toNat))) })

/-- A reader moves forward by at most 8 bits a command and stays within its buffer; at the end of the buffer every legal
read is `EndOfBuffer`, `RD.ALIGN` is a no-op or `EndOfBuffer`, `RD.EOF` is 1, and no command but `RD.NEW` on the slot
leaves that position (41_bitreader.md R126). -/
def Obligations.ReaderAtTheEndIsTerminal : Prop :=
  (∀ (i : Instr) (s t : State) (k : Nat) (r r' : Reader),
    exec i s = .next t → s.rd[k]? = some (some r) → r.Inv → t.rd[k]? = some (some r') →
    (∀ truncate bytes, i ≠ .rdNew k truncate bytes) →
      r.bitPosition ≤ r'.bitPosition ∧ r'.bitPosition ≤ r.bitPosition + 8 ∧ r'.Inv) ∧
  (∀ (s : State) (k : Nat) (r : Reader),
    s.rd[k]? = some (some r) → r.bitPosition = 8 * r.buffer.length →
      (∀ n : Int, 1 ≤ n → n ≤ 8 →
        exec (.rdBits k n) s = .next { s with response := some (.error .endOfBuffer) }) ∧
      exec (.rdByte k) s = .next { s with response := some (.error .endOfBuffer) } ∧
      exec (.rdAlign k false) s = .next { s with response := some (.ok none) } ∧
      exec (.rdAlign k true) s = .next { s with response := some (.error .endOfBuffer) } ∧
      exec (.rdEof k) s = .next { s with response := some (.ok (some (.value 1))) } ∧
      ∀ (i : Instr) (t : State), (∀ truncate bytes, i ≠ .rdNew k truncate bytes) → exec i s = .next t →
        t.rd[k]? = some (some r))

/-! ## BitWriter -/

/-- `WR.LEN` answers the number of bits the writer holds and changes nothing (42_bitwriter.md R141). -/
def Obligations.WrLenCountsTheBits : Prop :=
  ∀ (s : State) (k : Nat) (w : Writer), s.wr[k]? = some (some w) →
    exec (.wrLen k) s = .next { s with response := some (.ok (some (.value w.bits.length))) }

/-- `WR.BITS` appends the bits a string of `'0'` and `'1'` writes, in its order; a string with any other character is
`InvalidArgument` and nothing of it is appended; the empty string is legal (42_bitwriter.md R142). -/
def Obligations.WrBitsAppendsAllOrNothing : Prop :=
  ∀ (s : State) (k : Nat) (w : Writer), s.wr[k]? = some (some w) →
    (∀ x : Bits, exec (.wrBits k (str x)) s = .next { s with
      wr := s.wr.set k (some { bits := w.bits ++ x }), response := some (.ok none) }) ∧
    (∀ bitString : Octets, (∃ c ∈ bitString, c ≠ 0x30#8 ∧ c ≠ 0x31#8) →
      exec (.wrBits k bitString) s = .next { s with response := some (.error .invalidArgument) }) ∧
    (∀ bitString : Octets, (∀ c ∈ bitString, c = 0x30#8 ∨ c = 0x31#8) → ∃ x : Bits, bitString = str x)

/-- `WR.BYTE` appends the 8 bits of the byte, most significant first, wherever the stream ends; a value outside 0..255
is `InvalidArgument` and nothing is appended (42_bitwriter.md R143). -/
def Obligations.WrByteAppendsEightBits : Prop :=
  ∀ (s : State) (k : Nat) (byte : Int) (w : Writer), s.wr[k]? = some (some w) →
    (0 ≤ byte → byte ≤ 255 → ∃ x : Bits, x.length = 8 ∧ (toNat x : Int) = byte ∧
      exec (.wrByte k byte) s = .next { s with
        wr := s.wr.set k (some { bits := w.bits ++ x }), response := some (.ok none) }) ∧
    (byte < 0 ∨ 255 < byte →
      exec (.wrByte k byte) s = .next { s with response := some (.error .invalidArgument) })

/-- `WR.PAD` appends zeros and a single final 1 up to the next multiple of 8 bits; at a multiple of 8 it appends the
byte `00000001` with `force` and nothing without; afterwards the length is a multiple of 8
(42_bitwriter.md R144, R145). -/
def Obligations.WrPadAppendsThePadPattern : Prop :=
  ∀ (s : State) (k : Nat) (force : Bool) (w : Writer), s.wr[k]? = some (some w) →
    exec (.wrPad k force) s = .next { s with
      wr := s.wr.set k (some { bits := paddedBits w.bits force }), response := some (.ok none) } ∧
    (paddedBits w.bits force).length % 8 = 0

/-- `WR.POP` removes the last `n` bits and returns them as a string in stream order; `n` negative or above the number of
bits is `InvalidArgument` and nothing is removed (42_bitwriter.md R146; the order is the spec's decision D21). -/
def Obligations.WrPopTakesTheLastBits : Prop :=
  ∀ (s : State) (k : Nat),
    (∀ kept out : Bits, s.wr[k]? = some (some { bits := kept ++ out }) →
      exec (.wrPop k out.length) s = .next { s with
        wr := s.wr.set k (some { bits := kept }), response := some (.ok (some (.octets (str out)))) }) ∧
    (∀ (w : Writer) (n : Int), s.wr[k]? = some (some w) → n < 0 ∨ (w.bits.length : Int) < n →
      exec (.wrPop k n) s = .next { s with response := some (.error .invalidArgument) })

/-- `WR.FIN` pads as `WR.PAD` does, keeps the padding in the writer, and returns the bytes whose stream is the padded bit
string (42_bitwriter.md R147, R145, 20_memory.md R44). -/
def Obligations.WrFinPacksThePaddedBits : Prop :=
  ∀ (s : State) (k : Nat) (force : Bool) (w : Writer), s.wr[k]? = some (some w) → ∃ out : Octets,
    exec (.wrFin k force) s = .next { s with
      wr := s.wr.set k (some { bits := paddedBits w.bits force }),
      response := some (.ok (some (.octets out))) } ∧
    streamOf out = paddedBits w.bits force

/-- `WR.BITS` and then `WR.POP` of as many bits returns the string and restores every writer (42_bitwriter.md R148 (2);
the order is decision D21). -/
def Obligations.PopUndoesWrite : Prop :=
  ∀ (s t : State) (k : Nat) (bitString : Octets),
    exec (.wrBits k bitString) s = .next t → t.response = some (.ok none) →
      exec (.wrPop k bitString.length) t = .next { s with response := some (.ok (some (.octets bitString))) }

/-- A writer that holds the stream of a byte array, as `WR.BYTE` for each byte leaves it, finalised without `force`
returns the array and is unchanged; a reader over the bytes of `WR.FIN` reads the writer's bits in order
(42_bitwriter.md R148 (3) and (4), 20_memory.md R44). -/
def Obligations.PackingIsTheMirrorOfReading : Prop :=
  (∀ (s : State) (k : Nat) (bytes : Octets), s.wr[k]? = some (some { bits := streamOf bytes }) →
    exec (.wrFin k false) s = .next { s with response := some (.ok (some (.octets bytes))) }) ∧
  (∀ (s t u : State) (k j p : Nat) (force truncate : Bool) (out : Octets) (w : Writer),
    exec (.wrFin k force) s = .next t → t.response = some (.ok (some (.octets out))) →
    t.wr[k]? = some (some w) → u.rd[j]? = some (some { buffer := out, bitPosition := p, truncate := truncate }) →
    p < w.bits.length →
      ∃ v, exec (.rdBits j 1) u = .next v ∧
        ∃ b : Bool, w.bits[p]? = some b ∧ v.response = some (.ok (some (.value b.toNat))))

/-! ## The codec -/

/-- `CD.NEW` stores the configuration when the alphabet has the base's length, its characters are distinct (folded for
base32), and the pad, where given, is one character outside the alphabet; in every other case it is `InvalidArgument`
and the slot keeps what it held (43_basen_codec.md R161, R160; decisions D15, D16, D29). -/
def Obligations.CdNewStoresExactlyTheLegalConfigurations : Prop :=
  ∀ (s : State) (k : Nat) (base : Base) (strict : Bool) (alphabet : Octets) (pad : Option Octets), k < s.cd.length →
    (∀ padChar : Option Byte, pad = padChar.map (fun c => [c]) →
      ({ base := base, alphabet := alphabet, padChar := padChar, strict := strict } : Codec).Inv →
      exec (.cdNew k base strict alphabet pad) s = .next { s with
        cd := s.cd.set k (some { base := base, alphabet := alphabet, padChar := padChar, strict := strict }),
        response := some (.ok none) }) ∧
    ((∀ padChar : Option Byte, pad = padChar.map (fun c => [c]) →
        ¬ ({ base := base, alphabet := alphabet, padChar := padChar, strict := strict } : Codec).Inv) →
      exec (.cdNew k base strict alphabet pad) s = .next { s with response := some (.error .invalidArgument) })

/-- The forward mapping of an index is the alphabet's character as configured. The reverse lookup of a legal codec finds
the unique index whose alphabet character is equivalent to the character, or nothing when there is none; equivalence is
equality for base64 and equality after folding `A`–`Z` for base32, so a base32 character is found in either case
(43_basen_codec.md R162). -/
def Obligations.LookupFindsTheUniqueIndex : Prop :=
  ∀ (cfg : Codec) (c : Byte), cfg.Inv →
    (∀ i a, cfg.alphabet[i]? = some a → cfg.symbolChar i = a) ∧
    (∀ i : Nat, cfg.lookup c = some i ↔
      ∃ a, cfg.alphabet[i]? = some a ∧ charKey cfg.base a = charKey cfg.base c) ∧
    (cfg.lookup c = none ↔ ∀ a ∈ cfg.alphabet, charKey cfg.base a ≠ charKey cfg.base c) ∧
    (cfg.base = .base64 → ∀ i : Nat, cfg.lookup c = some i ↔ cfg.alphabet[i]? = some c) ∧
    (cfg.base = .base32 → 0x41 ≤ c.toNat → c.toNat ≤ 0x5A → cfg.lookup c = cfg.lookup (c + 0x20#8))

/-- `CD.ENCRAW` answers `ceil(8·len/k)` symbols, one octet each, symbol `i` the `k` stream bits from `i·k`, zero bits
after the end of the bytes, each below `2^k`; it changes nothing and never fails on an instance (43_basen_codec.md R163, R181). -/
def Obligations.CdEncrawCutsTheStream : Prop :=
  ∀ (s : State) (k : Nat) (bytes : Octets) (cfg : Codec), s.cd[k]? = some (some cfg) → ∃ out raw,
    exec (.cdEncraw k bytes) s = .next { s with response := some (.ok (some (.octets out))) } ∧
    IsRawEncoding cfg.base bytes raw ∧ out.map BitVec.toNat = raw ∧ ∀ v ∈ raw, v < 2 ^ symbolBits cfg.base

/-- `CD.ENC`, `ENC32` and `ENC64` answer the symbols through the alphabet, followed, where a pad character is configured,
by as few of it as reach the group boundary; they change nothing (43_basen_codec.md R164, R172, R175; the default
alphabets are decision D17, log entry 9). -/
def Obligations.EncodeAnswersThePaddedSymbols : Prop :=
  ∀ (i : Instr) (s : State) (cfg : Codec) (bytes : Octets), EncodesWith s i cfg bytes → cfg.Inv →
    ∃ out, exec i s = .next { s with response := some (.ok (some (.octets out))) } ∧ IsEncoding cfg bytes out

/-- The pad characters an encoding ends with are as many as the table of counts says, always a permitted run: base32 0,
6, 4, 3, 1 for a length of 0 to 4 modulo 5, base64 0, 2, 1 for 0 to 2 modulo 3 (43_basen_codec.md R181, R164 (d)). -/
def Obligations.EncodingPadCountIsPermitted : Prop :=
  ∀ (cfg : Codec) (pc : Byte) (bytes : Octets), cfg.Inv → cfg.padChar = some pc →
    ∃ q : Nat, (∃ body, cfg.encode bytes = body ++ List.replicate q pc ∧ pc ∉ body ∧
        body.length = (8 * bytes.length + symbolBits cfg.base - 1) / symbolBits cfg.base) ∧
      (q = 0 ∨ q ∈ padRuns cfg.base) ∧
      (match cfg.base with
       | .base32 => [0, 6, 4, 3, 1][bytes.length % 5]? = some q
       | .base64 => [0, 2, 1][bytes.length % 3]? = some q)

/-- `CD.DECRAW` answers the symbols of an accepted string, one octet each, and `InvalidFormat` for every other string; it
changes nothing. Acceptance: one trailing pad run of a permitted length, the length rule, known characters and no pad
character in the body, zero extra bits in the last symbol (43_basen_codec.md R165, R166, R167). -/
def Obligations.CdDecrawAcceptsExactlyTheValidStrings : Prop :=
  ∀ (s : State) (k : Nat) (e : Octets) (cfg : Codec), s.cd[k]? = some (some cfg) → cfg.Inv →
    (∀ symbols, AcceptedAs cfg e symbols →
      exec (.cdDecraw k e) s = .next { s with
        response := some (.ok (some (.octets (symbols.map (BitVec.ofNat 8))))) } ∧
      ∀ v ∈ symbols, v < alphabetSize cfg.base) ∧
    ((¬ ∃ symbols, AcceptedAs cfg e symbols) →
      exec (.cdDecraw k e) s = .next { s with response := some (.error .invalidFormat) })

/-- `CD.DEC`, `DEC32` and `DEC64` answer, for an accepted string without an overcut, the `nBytes` whole bytes of the
concatenated `k`-bit codes, and `InvalidFormat` for a string that is not accepted; they change nothing
(43_basen_codec.md R168, R173, R176; the overcut is decision D22, the default alphabets decision D17). -/
def Obligations.DecodeAnswersTheWholeBytes : Prop :=
  ∀ (i : Instr) (s : State) (cfg : Codec) (e : Octets), DecodesWith s i cfg e → cfg.Inv →
    (∀ symbols, AcceptedAs cfg e symbols → ¬ Overcut cfg.base symbols →
      ∃ out, exec i s = .next { s with response := some (.ok (some (.octets out))) } ∧
        IsDecoding cfg.base symbols out) ∧
    ((¬ ∃ symbols, AcceptedAs cfg e symbols) →
      exec i s = .next { s with response := some (.error .invalidFormat) })

/-- `CD.VALID`, `VALID32` and `VALID64` answer 1 exactly for the accepted strings, 0 for every other, always with status
OK, and change nothing (43_basen_codec.md R170, R174, R177). -/
def Obligations.ValidAnswersWhetherTheStringIsAccepted : Prop :=
  ∀ (i : Instr) (s : State) (cfg : Codec) (e : Octets), ValidatesWith s i cfg e → cfg.Inv →
    ∃ b : Bool, exec i s = .next { s with response := some (.ok (some (.value b.toNat))) } ∧
      (b = true ↔ ∃ symbols, AcceptedAs cfg e symbols)

/-- Where `CD.VALID` answers 1, `CD.DEC` on the same slot and string answers bytes or is refused, never an error; where
`CD.VALID` answers 0, it answers `InvalidFormat` (43_basen_codec.md R179). -/
def Obligations.ValidityImpliesDecodability : Prop :=
  ∀ (s t : State) (k : Nat) (e : Octets), exec (.cdValid k e) s = .next t →
    (t.response = some (.ok (some (.value 1))) →
      (∃ out, exec (.cdDec k e) s = .next { s with response := some (.ok (some (.octets out))) }) ∨
      exec (.cdDec k e) s = .refused .decodeOvercut) ∧
    (t.response = some (.ok (some (.value 0))) →
      exec (.cdDec k e) s = .next { s with response := some (.error .invalidFormat) })

/-- Round trip: for every byte array, what `CD.ENC` answers decodes to the array on the same slot, for every legal
configuration but a strict one without a pad character, and there too when the encoding's length is a multiple of the
group; the same holds of the default codecs (43_basen_codec.md R178, conflict C9). -/
def Obligations.DecodingAnEncodingGivesTheBytesBack : Prop :=
  ∀ (i j : Instr) (s t : State) (cfg : Codec) (bytes out : Octets),
    cfg.Inv → EncodesWith s i cfg bytes → exec i s = .next t → t.response = some (.ok (some (.octets out))) →
    DecodesWith t j cfg out →
    (cfg.strict = true → cfg.padChar = none → out.length % groupSize cfg.base = 0) →
      exec j t = .next { s with response := some (.ok (some (.octets bytes))) }

/-- The one exception to the round trip: a strict codec without a pad character rejects its own encoding when the number
of symbols is not a multiple of the group (43_basen_codec.md R178, conflict C9). -/
def Obligations.StrictUnpaddedCodecRejectsItsShortEncodings : Prop :=
  ∀ (s t : State) (k : Nat) (cfg : Codec) (bytes out : Octets),
    cfg.Inv → s.cd[k]? = some (some cfg) → cfg.strict = true → cfg.padChar = none →
    exec (.cdEnc k bytes) s = .next t → t.response = some (.ok (some (.octets out))) →
    out.length % groupSize cfg.base ≠ 0 →
      exec (.cdDec k out) t = .next { s with response := some (.error .invalidFormat) }

/-! ## The assembler -/

/-- The assembler fills in each of the source's six defaults where the argument is omitted, and expands each of the four
pseudo-instructions to one command. First for a line already cut into its arguments, with every slot, operand and
payload; then for lines of text (30_encoding.md R75, R76, R77; decision D31; what R75 leaves open is log entry 12; the
alphabets of `CD.NEW32` and `CD.NEW64` are decision D17, log entry 9). -/
def Obligations.AssemblerFillsInDefaultsAndExpandsPseudoInstructions : Prop :=
  (∀ (slot : Nat) (b : Octets) (byte n : Int) (base : Base) (strict prefixed : Bool) (pad : Octets),
    let reader : Assembler.Args := { Assembler.Args.empty with slots := [(.rd, slot)] }
    let writer : Assembler.Args := { Assembler.Args.empty with slots := [(.wr, slot)] }
    let codec : Assembler.Args := { Assembler.Args.empty with slots := [(.cd, slot)] }
    let number : Assembler.Args := { Assembler.Args.empty with integers := [byte] }
    Assembler.command "RD.NEW".toList { reader with bytes := [b] } = some (.rdNew slot true b) ∧
    Assembler.command "RD.ALIGN".toList reader = some (.rdAlign slot false) ∧
    Assembler.command "WR.PAD".toList writer = some (.wrPad slot false) ∧
    Assembler.command "WR.FIN".toList writer = some (.wrFin slot true) ∧
    Assembler.command "CD.NEW".toList { codec with strs := [b], bases := [base] }
      = some (.cdNew slot base false b none) ∧
    Assembler.command "CD.NEW".toList { codec with strs := [b], bases := [base], pads := [pad] }
      = some (.cdNew slot base false b (some pad)) ∧
    Assembler.command "CD.NEW".toList { codec with strs := [b], bases := [base], flags := [(.strict, strict)] }
      = some (.cdNew slot base strict b none) ∧
    Assembler.command "BYTE2BITS".toList number = some (.byte2bits byte 8 true) ∧
    Assembler.command "BYTE2BITS".toList { number with integers := [byte, n] } = some (.byte2bits byte n true) ∧
    Assembler.command "BYTE2BITS".toList { number with flags := [(.prefixed, prefixed)] }
      = some (.byte2bits byte 8 prefixed) ∧
    Assembler.command "RD.SKIP".toList reader = some (.rdAlign slot true) ∧
    Assembler.command "WR.FINRAW".toList writer = some (.wrFin slot false) ∧
    Assembler.command "CD.NEW32".toList codec
      = some (.cdNew slot .base32 false defaultBase32.alphabet (some [0x3D])) ∧
    Assembler.command "CD.NEW64".toList codec
      = some (.cdNew slot .base64 false defaultBase64.alphabet (some [0x3D]))) ∧
  Assembler.assemble "RD.NEW r2, [0xA5, 0x3C]" = some (.rdNew 2 true [0xA5, 0x3C]) ∧
  Assembler.assemble "RD.ALIGN r0" = some (.rdAlign 0 false) ∧
  Assembler.assemble "WR.PAD w15" = some (.wrPad 15 false) ∧
  Assembler.assemble "WR.FIN w0" = some (.wrFin 0 true) ∧
  Assembler.assemble "CD.NEW c1, \"ab\", base=32" = some (.cdNew 1 .base32 false [0x61, 0x62] none) ∧
  Assembler.assemble "BYTE2BITS 7" = some (.byte2bits 7 8 true) ∧
  Assembler.assemble "RD.SKIP r1" = some (.rdAlign 1 true) ∧
  Assembler.assemble "WR.FINRAW w3" = some (.wrFin 3 false) ∧
  Assembler.assemble "CD.NEW32 c0" = some (.cdNew 0 .base32 false defaultBase32.alphabet (some [0x3D])) ∧
  Assembler.assemble "CD.NEW64 c0" = some (.cdNew 0 .base64 false defaultBase64.alphabet (some [0x3D]))

/-! ## The laws of the writer -/

/-- Law (1) of 42_bitwriter.md R148, with `T` the number of bits the writer holds before the command: after an OK response
`WR.BITS` has grown it by the string's length, `WR.BYTE` by 8, `WR.PAD` and `WR.FIN` by `(8 - T mod 8) mod 8`, or by 8
when aligned and forced, and `WR.POP n` has shrunk it by `n`; law (5): an error response leaves it as it was. -/
def Obligations.WriterLengthFollowsTheCommands : Prop :=
  ∀ (i : Instr) (s t : State) (k : Nat) (w : Writer), exec i s = .next t → s.wr[k]? = some (some w) →
    (∀ kind, t.response = some (.error kind) → t.wr = s.wr) ∧
    (∀ result, t.response = some (.ok result) →
      (∀ bitString, i = .wrBits k bitString →
        ∃ w', t.wr[k]? = some (some w') ∧ w'.bits.length = w.bits.length + bitString.length) ∧
      (∀ byte, i = .wrByte k byte → ∃ w', t.wr[k]? = some (some w') ∧ w'.bits.length = w.bits.length + 8) ∧
      (∀ force, i = .wrPad k force ∨ i = .wrFin k force →
        ∃ w', t.wr[k]? = some (some w') ∧ w'.bits.length = w.bits.length +
          (if force = true ∧ w.bits.length % 8 = 0 then 8 else (8 - w.bits.length % 8) % 8)) ∧
      (∀ n, i = .wrPop k n → ∃ w', t.wr[k]? = some (some w') ∧ (w'.bits.length : Int) = w.bits.length - n))

/-- Law (3) of 42_bitwriter.md R148: on an empty writer `WR.BYTE` for each byte of an array completes, whatever the array,
and `WR.FIN` without `force` then returns the array and adds nothing. -/
def Obligations.WritingBytesAndFinishingReturnsThem : Prop :=
  ∀ (s : State) (k : Nat) (bytes : Octets), s.wr[k]? = some (some { bits := [] }) →
    ∃ t, State.writeBytes k bytes s = .next t ∧
      exec (.wrFin k false) t = .next { t with response := some (.ok (some (.octets bytes))) }
end

