-- ==== Sys2Proof/Laws/Bits.lean ====
section
/-! SUPPORT. Bit sequences, values and byte streams: the conversions of 00_scope.md R12 are inverse to each other, and
the reads and packings of 20_memory.md are slices of one stream. -/

namespace Sys2Proof.Machine

/-! ## Values and bit sequences -/

@[simp] theorem toBits_length (v m : Nat) : (toBits v m).length = m := by simp [toBits]

@[simp] theorem toBits_zero (v : Nat) : toBits v 0 = [] := rfl

/-- The first bit is the most significant one. -/
theorem toBits_succ (v m : Nat) : toBits v (m + 1) = v.testBit m :: toBits v m := by
  simp only [toBits, List.range_succ_eq_map, List.map_cons, List.map_map]
  congr 1
  refine List.map_congr_left fun j _ => ?_
  simp only [Function.comp]
  congr 1
  omega

@[simp] theorem toNat_nil : toNat [] = 0 := rfl

theorem toNat_cons (b : Bool) (w : Bits) : toNat (b :: w) = b.toNat * 2 ^ w.length + toNat w := rfl

theorem toNat_append (a b : Bits) : toNat (a ++ b) = toNat a * 2 ^ b.length + toNat b := by
  induction a with
  | nil => simp
  | cons x a ih =>
    simp only [List.cons_append, toNat_cons, ih, List.length_append, pow_add]
    ring

theorem toNat_lt (w : Bits) : toNat w < 2 ^ w.length := by
  induction w with
  | nil => simp
  | cons b w ih =>
    rw [toNat_cons, List.length_cons, pow_succ]
    have : b.toNat ≤ 1 := Bool.toNat_le b
    nlinarith

theorem toNat_toBits_mod (v m : Nat) : toNat (toBits v m) = v % 2 ^ m := by
  induction m with
  | zero => simp [Nat.mod_one]
  | succ m ih =>
    rw [toBits_succ, toNat_cons, ih, toBits_length, Nat.mod_pow_succ, Nat.toNat_testBit]
    ring

theorem toNat_toBits {v m : Nat} (h : v < 2 ^ m) : toNat (toBits v m) = v := by
  rw [toNat_toBits_mod, Nat.mod_eq_of_lt h]

theorem toNat_injective {a b : Bits} (hl : a.length = b.length) (h : toNat a = toNat b) : a = b := by
  induction a generalizing b with
  | nil => exact (List.length_eq_zero_iff.mp hl.symm).symm
  | cons x a ih =>
    cases b with
    | nil => simp at hl
    | cons y b =>
      have hl' : a.length = b.length := by simpa using hl
      simp only [toNat_cons, hl'] at h
      have ha := toNat_lt a
      have hb := toNat_lt b
      rw [hl'] at ha
      have hxy : x = y := by
        cases x <;> cases y <;> simp at h ⊢ <;> omega
      subst hxy
      rw [ih hl' (by omega)]

theorem toBits_toNat (w : Bits) : toBits (toNat w) w.length = w :=
  toNat_injective (by simp) (by rw [toNat_toBits (toNat_lt w)])

theorem toBits_toNat' {w : Bits} {m : Nat} (h : w.length = m) : toBits (toNat w) m = w := h ▸ toBits_toNat w

theorem toBits_getElem? (v m j : Nat) (h : j < m) : (toBits v m)[j]? = some (v.testBit (m - 1 - j)) := by
  simp [toBits, h]

/-- The high bits of a value are the value shifted right. -/
theorem toBits_take (v m n : Nat) (h : n ≤ m) : (toBits v m).take n = toBits (v / 2 ^ (m - n)) n := by
  apply List.ext_getElem?
  intro j
  rcases Nat.lt_or_ge j n with hj | hj
  · rw [List.getElem?_take_of_lt hj, toBits_getElem? _ _ _ (by omega), toBits_getElem? _ _ _ hj, Nat.testBit_div_two_pow]
    congr 2
    omega
  · rw [List.getElem?_eq_none (by simp; omega), List.getElem?_eq_none (by simp; omega)]

/-- The low bits of a value. -/
theorem toBits_drop (v m n : Nat) : (toBits v m).drop n = toBits v (m - n) := by
  apply List.ext_getElem?
  intro j
  rw [List.getElem?_drop]
  rcases Nat.lt_or_ge (n + j) m with hj | hj
  · rw [toBits_getElem? _ _ _ hj, toBits_getElem? _ _ _ (by omega)]
    congr 2
    omega
  · rw [List.getElem?_eq_none (by simp; omega), List.getElem?_eq_none (by simp; omega)]

@[simp] theorem toNat_replicate_false (m : Nat) : toNat (List.replicate m false) = 0 := by
  induction m with
  | zero => rfl
  | succ m ih => simp [List.replicate_succ, toNat_cons, ih]

/-! ## Bit strings -/

@[simp] theorem str_length (w : Bits) : (str w).length = w.length := by simp [str]

@[simp] theorem str_append (a b : Bits) : str (a ++ b) = str a ++ str b := by simp [str]

@[simp] theorem isBitStr_str (w : Bits) : isBitStr (str w) = true := by
  simp only [isBitStr, str, List.all_map, List.all_eq_true]
  intro b _
  cases b <;> decide

@[simp] theorem bitsOf_str (w : Bits) : bitsOf (str w) = w := by
  simp only [bitsOf, str, List.map_map]
  conv_rhs => rw [← List.map_id w]
  refine List.map_congr_left fun b _ => ?_
  cases b <;> decide

theorem isBitStr_iff {s : Octets} : isBitStr s = true ↔ ∀ c ∈ s, c = 0x30#8 ∨ c = 0x31#8 := by
  simp [isBitStr]

theorem str_bitsOf {s : Octets} (h : isBitStr s = true) : str (bitsOf s) = s := by
  rw [isBitStr_iff] at h
  simp only [bitsOf, str, List.map_map]
  conv_rhs => rw [← List.map_id s]
  refine List.map_congr_left fun c hc => ?_
  rcases h c hc with rfl | rfl <;> decide

@[simp] theorem bitsOf_length (s : Octets) : (bitsOf s).length = s.length := by simp [bitsOf]

theorem str_injective {a b : Bits} (h : str a = str b) : a = b := by
  rw [← bitsOf_str a, h, bitsOf_str]

/-! ## Streams -/

@[simp] theorem streamOf_nil : streamOf [] = [] := rfl

theorem streamOf_cons (b : Byte) (buf : Octets) : streamOf (b :: buf) = toBits b.toNat 8 ++ streamOf buf := rfl

theorem streamOf_append (a b : Octets) : streamOf (a ++ b) = streamOf a ++ streamOf b := by
  simp [streamOf]

@[simp] theorem streamOf_length (buf : Octets) : (streamOf buf).length = 8 * buf.length := by
  induction buf with
  | nil => rfl
  | cons b buf ih => simp [streamOf_cons, ih]; omega

theorem streamOf_getElem? (buf : Octets) (i : Nat) (h : i < 8 * buf.length) :
    (streamOf buf)[i]? = some (streamBit buf i) := by
  induction buf generalizing i with
  | nil => simp at h
  | cons b buf ih =>
    rw [streamOf_cons]
    rcases Nat.lt_or_ge i 8 with hi | hi
    · rw [List.getElem?_append_left (by simpa using hi), toBits_getElem? _ _ _ hi]
      simp only [streamBit, Nat.div_eq_of_lt hi, Nat.mod_eq_of_lt hi, List.getD_cons_zero]
      rfl
    · rw [List.getElem?_append_right (by simpa using hi), toBits_length, ih _ (by simp at h; omega)]
      simp only [streamBit]
      rw [show i / 8 = (i - 8) / 8 + 1 by omega, List.getD_cons_succ, show (i - 8) % 8 = i % 8 by omega]

@[simp] theorem slice_length (w : Bits) (a m : Nat) : (slice w a m).length = min m (w.length - a) := by
  simp [slice]

theorem slice_split (w : Bits) (p a b : Nat) : slice w p (a + b) = slice w p a ++ slice w (p + a) b := by
  simp only [slice, ← List.drop_drop, List.take_add]

theorem slice_append_left (w z : Bits) (a m : Nat) (h : a + m ≤ w.length) : slice (w ++ z) a m = slice w a m := by
  simp only [slice]
  rw [List.drop_append_of_le_length (by omega), List.take_append_of_le_length (by simp; omega)]

/-- A read inside the buffer is the number its slice of the stream writes (20_memory.md R42). -/
theorem memRead_eq_slice (buf : Octets) (p m : Nat) (h : p + m ≤ 8 * buf.length) :
    memRead buf p m = toNat (slice (streamOf buf) p m) := by
  unfold memRead
  congr 1
  apply List.ext_getElem?
  intro j
  rcases Nat.lt_or_ge j m with hj | hj
  · rw [slice, List.getElem?_take_of_lt hj, List.getElem?_drop, streamOf_getElem? _ _ (by omega)]
    simp [hj]
  · rw [List.getElem?_eq_none (by simp; omega), List.getElem?_eq_none (by simp; omega)]

theorem memRead_lt (buf : Octets) (p m : Nat) : memRead buf p m < 2 ^ m := by
  have h := toNat_lt ((List.range m).map fun j => streamBit buf (p + j))
  simp only [List.length_map, List.length_range] at h
  exact h

/-- One byte of the stream. -/
theorem slice_streamOf_byte (buf : Octets) (j : Nat) (b : Byte) (h : buf[j]? = some b) :
    slice (streamOf buf) (8 * j) 8 = toBits b.toNat 8 := by
  induction buf generalizing j with
  | nil => simp at h
  | cons a buf ih =>
    cases j with
    | zero =>
      obtain rfl : a = b := by simpa using h
      simp [slice, streamOf_cons]
    | succ j =>
      rw [← ih j (by simpa using h)]
      simp only [slice, streamOf_cons]
      rw [List.drop_append, List.drop_eq_nil_of_le (by simp)]
      simp [show 8 * (j + 1) - 8 = 8 * j by omega]

/-! ## Packing -/

@[simp] theorem packBytes_length (w : Bits) : (packBytes w).length = w.length / 8 := by simp [packBytes]

/-- Packing the first 8 bits, then the rest. -/
theorem packBytes_append (a w : Bits) (h : a.length = 8) :
    packBytes (a ++ w) = BitVec.ofNat 8 (toNat a) :: packBytes w := by
  have hlen : (a ++ w).length / 8 = w.length / 8 + 1 := by simp [h]
  simp only [packBytes, hlen, List.range_succ_eq_map, List.map_cons, List.map_map]
  congr 1
  · simp [← h]
  · refine List.map_congr_left fun j _ => ?_
    simp only [Function.comp]
    rw [show 8 * (j + 1) = a.length + 8 * j by omega, List.drop_append,
      List.drop_eq_nil_of_le (by omega)]
    simp

theorem packBytes_streamOf (buf : Octets) : packBytes (streamOf buf) = buf := by
  induction buf with
  | nil => rfl
  | cons b buf ih =>
    rw [streamOf_cons, packBytes_append _ _ (by simp), ih, toNat_toBits b.isLt]
    simp

theorem streamOf_packBytes (w : Bits) (h : w.length % 8 = 0) : streamOf (packBytes w) = w := by
  obtain ⟨n, hn⟩ : ∃ n, w.length = 8 * n := ⟨w.length / 8, by omega⟩
  clear h
  induction n generalizing w with
  | zero =>
    obtain rfl := List.length_eq_zero_iff.mp hn
    rfl
  | succ n ih =>
    have hsplit : w = w.take 8 ++ w.drop 8 := (List.take_append_drop 8 w).symm
    have h8 : (w.take 8).length = 8 := by simp; omega
    rw [hsplit, packBytes_append _ _ h8, streamOf_cons, ih (w.drop 8) (by simp; omega)]
    congr 1
    rw [BitVec.toNat_ofNat, Nat.mod_eq_of_lt (by simpa [h8] using toNat_lt (w.take 8))]
    exact toBits_toNat' h8

end Sys2Proof.Machine
end

