-- ==== Sys2Proof/Laws/State.lean ====
section
/-! SUPPORT. One lemma per field per update of State, each true by unfolding, so that no later proof unfolds a record
update. -/

namespace Sys2Proof.Machine

variable (s : State) (k : Nat) (r : Reader) (w : Writer) (c : Codec)

@[simp] theorem State.setReader_rd : (s.setReader k r).rd = s.rd.set k (some r) := rfl
@[simp] theorem State.setReader_wr : (s.setReader k r).wr = s.wr := rfl
@[simp] theorem State.setReader_cd : (s.setReader k r).cd = s.cd := rfl
@[simp] theorem State.setReader_commands : (s.setReader k r).commands = s.commands := rfl
@[simp] theorem State.setReader_response : (s.setReader k r).response = s.response := rfl

@[simp] theorem State.setWriter_rd : (s.setWriter k w).rd = s.rd := rfl
@[simp] theorem State.setWriter_wr : (s.setWriter k w).wr = s.wr.set k (some w) := rfl
@[simp] theorem State.setWriter_cd : (s.setWriter k w).cd = s.cd := rfl
@[simp] theorem State.setWriter_commands : (s.setWriter k w).commands = s.commands := rfl
@[simp] theorem State.setWriter_response : (s.setWriter k w).response = s.response := rfl

@[simp] theorem State.setCodec_rd : (s.setCodec k c).rd = s.rd := rfl
@[simp] theorem State.setCodec_wr : (s.setCodec k c).wr = s.wr := rfl
@[simp] theorem State.setCodec_cd : (s.setCodec k c).cd = s.cd.set k (some c) := rfl
@[simp] theorem State.setCodec_commands : (s.setCodec k c).commands = s.commands := rfl
@[simp] theorem State.setCodec_response : (s.setCodec k c).response = s.response := rfl

@[simp] theorem State.present_rd (pk : Packet) : (s.present pk).rd = s.rd := rfl
@[simp] theorem State.present_wr (pk : Packet) : (s.present pk).wr = s.wr := rfl
@[simp] theorem State.present_cd (pk : Packet) : (s.present pk).cd = s.cd := rfl
@[simp] theorem State.present_commands (pk : Packet) : (s.present pk).commands = pk :: s.commands := rfl
@[simp] theorem State.present_response (pk : Packet) : (s.present pk).response = s.response := rfl

variable (nr nw nc : Nat)

@[simp] theorem State.resetWith_rd : (State.resetWith nr nw nc).rd = List.replicate nr none := rfl
@[simp] theorem State.resetWith_wr : (State.resetWith nr nw nc).wr = List.replicate nw none := rfl
@[simp] theorem State.resetWith_cd : (State.resetWith nr nw nc).cd = List.replicate nc none := rfl
@[simp] theorem State.resetWith_commands : (State.resetWith nr nw nc).commands = [] := rfl
@[simp] theorem State.resetWith_response : (State.resetWith nr nw nc).response = none := rfl

/-- Writing back the instance a slot holds changes nothing. -/
theorem State.setReader_self {s : State} {k : Nat} {r : Reader} (h : s.rd[k]? = some (some r)) :
    s.setReader k r = s := by
  obtain ⟨hk, hr⟩ := List.getElem?_eq_some_iff.mp h
  cases s
  simp only [State.setReader]
  congr
  rw [← hr, List.set_getElem_self]

/-- Writing back the instance a slot holds changes nothing. -/
theorem State.setWriter_self {s : State} {k : Nat} {w : Writer} (h : s.wr[k]? = some (some w)) :
    s.setWriter k w = s := by
  obtain ⟨hk, hw⟩ := List.getElem?_eq_some_iff.mp h
  cases s
  simp only [State.setWriter]
  congr
  rw [← hw, List.set_getElem_self]

end Sys2Proof.Machine
end

