-- ==== Sys2Proof/Laws/Ops.lean ====
section
/-! SUPPORT. What the shared operations can do, once: answering, taking an error, reaching a slot. -/

namespace Sys2Proof.Machine

/-- An OK answer changes the response alone. -/
theorem State.reply_next_iff {s t : State} {result : Option Result} :
    s.reply result = .next t ↔ t = { s with response := some (.ok result) } := by
  simp only [State.reply, Host.Outcome.next.injEq, eq_comm]

/-- Taking an error changes the response alone. -/
theorem State.raise_next_iff {s t : State} {kind : ErrorKind} :
    s.raise kind = .next t ↔ t = { s with response := some (.error kind) } := by
  simp only [State.raise, Host.Outcome.next.injEq, eq_comm]

section
variable {s : State} {k : Nat}

theorem State.withReader_missing {f : Reader → StepOutcome} (h : s.rd.length ≤ k) :
    s.withReader k f = s.raise .illegalCommand := by
  simp [State.withReader, List.getElem?_eq_none h]

theorem State.withReader_empty {f : Reader → StepOutcome} (h : s.rd[k]? = some none) :
    s.withReader k f = s.raise .noInstance := by
  simp [State.withReader, h]

theorem State.withReader_instance {f : Reader → StepOutcome} {r : Reader} (h : s.rd[k]? = some (some r)) :
    s.withReader k f = f r := by
  simp [State.withReader, h]

theorem State.withWriter_missing {f : Writer → StepOutcome} (h : s.wr.length ≤ k) :
    s.withWriter k f = s.raise .illegalCommand := by
  simp [State.withWriter, List.getElem?_eq_none h]

theorem State.withWriter_empty {f : Writer → StepOutcome} (h : s.wr[k]? = some none) :
    s.withWriter k f = s.raise .noInstance := by
  simp [State.withWriter, h]

theorem State.withWriter_instance {f : Writer → StepOutcome} {w : Writer} (h : s.wr[k]? = some (some w)) :
    s.withWriter k f = f w := by
  simp [State.withWriter, h]

theorem State.withCodec_missing {f : Codec → StepOutcome} (h : s.cd.length ≤ k) :
    s.withCodec k f = s.raise .illegalCommand := by
  simp [State.withCodec, List.getElem?_eq_none h]

theorem State.withCodec_empty {f : Codec → StepOutcome} (h : s.cd[k]? = some none) :
    s.withCodec k f = s.raise .noInstance := by
  simp [State.withCodec, h]

theorem State.withCodec_instance {f : Codec → StepOutcome} {c : Codec} (h : s.cd[k]? = some (some c)) :
    s.withCodec k f = f c := by
  simp [State.withCodec, h]

/-- A slot is missing, Empty, or holds a reader; `withReader` does one thing in each case. -/
theorem State.withReader_cases (s : State) (k : Nat) (f : Reader → StepOutcome) :
    (s.rd.length ≤ k ∧ s.withReader k f = s.raise .illegalCommand) ∨
    (s.rd[k]? = some none ∧ s.withReader k f = s.raise .noInstance) ∨
    (∃ r, s.rd[k]? = some (some r) ∧ s.withReader k f = f r) := by
  match h : s.rd[k]? with
  | none => exact .inl ⟨List.getElem?_eq_none_iff.mp h, by simp [State.withReader, h]⟩
  | some none => exact .inr (.inl ⟨rfl, by simp [State.withReader, h]⟩)
  | some (some r) => exact .inr (.inr ⟨r, rfl, by simp [State.withReader, h]⟩)

/-- A slot is missing, Empty, or holds a writer; `withWriter` does one thing in each case. -/
theorem State.withWriter_cases (s : State) (k : Nat) (f : Writer → StepOutcome) :
    (s.wr.length ≤ k ∧ s.withWriter k f = s.raise .illegalCommand) ∨
    (s.wr[k]? = some none ∧ s.withWriter k f = s.raise .noInstance) ∨
    (∃ w, s.wr[k]? = some (some w) ∧ s.withWriter k f = f w) := by
  match h : s.wr[k]? with
  | none => exact .inl ⟨List.getElem?_eq_none_iff.mp h, by simp [State.withWriter, h]⟩
  | some none => exact .inr (.inl ⟨rfl, by simp [State.withWriter, h]⟩)
  | some (some w) => exact .inr (.inr ⟨w, rfl, by simp [State.withWriter, h]⟩)

/-- A slot is missing, Empty, or holds a codec; `withCodec` does one thing in each case. -/
theorem State.withCodec_cases (s : State) (k : Nat) (f : Codec → StepOutcome) :
    (s.cd.length ≤ k ∧ s.withCodec k f = s.raise .illegalCommand) ∨
    (s.cd[k]? = some none ∧ s.withCodec k f = s.raise .noInstance) ∨
    (∃ c, s.cd[k]? = some (some c) ∧ s.withCodec k f = f c) := by
  match h : s.cd[k]? with
  | none => exact .inl ⟨List.getElem?_eq_none_iff.mp h, by simp [State.withCodec, h]⟩
  | some none => exact .inr (.inl ⟨rfl, by simp [State.withCodec, h]⟩)
  | some (some c) => exact .inr (.inr ⟨c, rfl, by simp [State.withCodec, h]⟩)

theorem State.withSlot_present {count : Nat} {o : StepOutcome} (h : k < count) : s.withSlot count k o = o := by
  simp [State.withSlot, h]

theorem State.withSlot_missing {count : Nat} {o : StepOutcome} (h : count ≤ k) :
    s.withSlot count k o = s.raise .illegalCommand := by
  simp [State.withSlot, Nat.not_lt.mpr h]

end

end Sys2Proof.Machine
end

