-- ==== Sys2Proof/Laws/Reader.lean ====
section
/-! SUPPORT. The one lemma each for `readBits` and `moveToByteBoundary` (41_bitreader.md R122, R124). -/

namespace Sys2Proof.Machine

theorem Reader.remaining_eq (r : Reader) : r.remaining = 8 * r.buffer.length - r.bitPosition := rfl

theorem Reader.readBits_badCount (r : Reader) {n : Int} (h : n < 1 ∨ 8 < n) :
    r.readBits n = .error .invalidArgument := by
  simp [Reader.readBits, h]

theorem Reader.readBits_atEnd (r : Reader) {n : Int} (h1 : 1 ≤ n) (h8 : n ≤ 8)
    (hp : 8 * r.buffer.length ≤ r.bitPosition) : r.readBits n = .error .endOfBuffer := by
  rw [Reader.readBits, if_neg (by omega), if_pos (by rw [Reader.remaining_eq]; omega)]

/-- A read that finds a bit: `m = min(n, remaining)` bits of the stream, the position `m` further. -/
theorem Reader.readBits_ok (r : Reader) {n : Int} (h1 : 1 ≤ n) (h8 : n ≤ 8)
    (hp : r.bitPosition < 8 * r.buffer.length) {m v : Nat}
    (hm : m = min n.toNat (8 * r.buffer.length - r.bitPosition))
    (hv : v = toNat (slice (streamOf r.buffer) r.bitPosition m)) :
    r.readBits n = .ok (if r.truncate then v else v * 2 ^ (n.toNat - m),
      { r with bitPosition := r.bitPosition + m }) := by
  have hle : r.bitPosition + m ≤ 8 * r.buffer.length := by omega
  rw [Reader.readBits, if_neg (by omega), if_neg (by rw [Reader.remaining_eq]; omega)]
  simp only [Reader.remaining_eq, ← hm, memRead_eq_slice _ _ _ hle, ← hv]
  by_cases hmn : m = n.toNat
  · simp [hmn]
  · by_cases ht : r.truncate = true <;> simp [hmn, ht, Nat.shiftLeft_eq]

/-- Whatever a read does: an error, or 1 to 8 bits forward inside the buffer, nothing else of the reader changed. -/
theorem Reader.readBits_cases (r : Reader) (n : Int) :
    (∃ kind, r.readBits n = .error kind ∧
      ((kind = .invalidArgument ∧ (n < 1 ∨ 8 < n)) ∨
       (kind = .endOfBuffer ∧ 1 ≤ n ∧ n ≤ 8 ∧ 8 * r.buffer.length ≤ r.bitPosition))) ∨
    (∃ v m, r.readBits n = .ok (v, { r with bitPosition := r.bitPosition + m }) ∧ 1 ≤ n ∧ n ≤ 8 ∧
      r.bitPosition < 8 * r.buffer.length ∧ m = min n.toNat (8 * r.buffer.length - r.bitPosition) ∧
      v = if r.truncate then toNat (slice (streamOf r.buffer) r.bitPosition m)
        else toNat (slice (streamOf r.buffer) r.bitPosition m) * 2 ^ (n.toNat - m)) := by
  by_cases hn : n < 1 ∨ 8 < n
  · exact .inl ⟨_, r.readBits_badCount hn, .inl ⟨rfl, hn⟩⟩
  · rcases Nat.lt_or_ge r.bitPosition (8 * r.buffer.length) with hp | hp
    · exact .inr ⟨_, _, r.readBits_ok (by omega) (by omega) hp rfl rfl, by omega, by omega, hp, rfl, rfl⟩
    · exact .inl ⟨_, r.readBits_atEnd (by omega) (by omega) hp, .inr ⟨rfl, by omega, by omega, hp⟩⟩

/-- Whatever `moveToByteBoundary` does: `EndOfBuffer` with `force` at an aligned end (or past it), nothing, or up to 8
bits forward. -/
theorem Reader.moveToByteBoundary_cases (r : Reader) (force : Bool) :
    (r.moveToByteBoundary force = .error .endOfBuffer ∧ 8 * r.buffer.length ≤ r.bitPosition ∧
      (r.bitPosition % 8 ≠ 0 ∨ force = true)) ∨
    (r.moveToByteBoundary force = .ok r ∧ r.bitPosition % 8 = 0 ∧ force = false) ∨
    (∃ m, r.moveToByteBoundary force = .ok { r with bitPosition := r.bitPosition + m } ∧ 1 ≤ m ∧ m ≤ 8 ∧
      r.bitPosition + m ≤ 8 * r.buffer.length ∧ m = min (8 - r.bitPosition % 8) (8 * r.buffer.length - r.bitPosition) ∧
      (r.bitPosition % 8 ≠ 0 ∨ force = true)) := by
  rcases Nat.lt_or_ge r.bitPosition (8 * r.buffer.length) with hp | hp
  · by_cases hu : r.bitPosition % 8 = 0
    · cases force with
      | false => exact .inr (.inl ⟨by simp [Reader.moveToByteBoundary, hu], hu, rfl⟩)
      | true =>
        refine .inr (.inr ⟨_, ?_, ?_, ?_, ?_, rfl, .inr rfl⟩)
        · rw [Reader.moveToByteBoundary, if_neg (by simpa using hu), if_pos rfl,
            r.readBits_ok (n := 8) (by omega) (by omega) hp rfl rfl]
          simp [Except.map, hu]
        all_goals omega
    · refine .inr (.inr ⟨_, ?_, ?_, ?_, ?_, rfl, .inl hu⟩)
      · rw [Reader.moveToByteBoundary, if_pos hu,
          r.readBits_ok (by omega) (by omega) hp rfl rfl]
        simp [Except.map]
        omega
      all_goals omega
  · by_cases hu : r.bitPosition % 8 = 0
    · cases force with
      | false => exact .inr (.inl ⟨by simp [Reader.moveToByteBoundary, hu], hu, rfl⟩)
      | true =>
        refine .inl ⟨?_, hp, .inr rfl⟩
        rw [Reader.moveToByteBoundary, if_neg (by simpa using hu), if_pos rfl,
          r.readBits_atEnd (by omega) (by omega) hp]
        rfl
    · refine .inl ⟨?_, hp, .inl hu⟩
      rw [Reader.moveToByteBoundary, if_pos hu, r.readBits_atEnd (by omega) (by omega) hp]
      rfl

theorem Reader.eof_iff (r : Reader) : r.eof = true ↔ r.buffer.length ≤ r.bitPosition / 8 := by simp [Reader.eof]

/-- For a legal reader `eof` is: no bit remains (10_state.md R32). -/
theorem Reader.eof_iff_atEnd {r : Reader} (h : r.Inv) : r.eof = true ↔ r.bitPosition = 8 * r.buffer.length := by
  rw [Reader.eof_iff]
  unfold Reader.Inv at h
  omega

end Sys2Proof.Machine
end

