-- ==== Sys2Proof/Laws/Writer.lean ====
section
/-! SUPPORT. What the writer's functions do to the bit string (42_bitwriter.md). -/

namespace Sys2Proof.Machine

@[simp] theorem Writer.append_bits (w : Writer) (more : Bits) : (w.append more).bits = w.bits ++ more := rfl

@[simp] theorem padPattern_length {g : Nat} (h : 1 ≤ g) : (padPattern g).length = g := by
  simp [padPattern]
  omega

theorem paddedBits_length (w : Bits) (force : Bool) : (paddedBits w force).length % 8 = 0 := by
  simp only [paddedBits]
  split
  · simp
    omega
  · split
    · simp
      omega
    · omega

/-- `padToByteBoundary` leaves the padded bits (42_bitwriter.md R145). -/
theorem Writer.padToByteBoundary_eq (w : Writer) (force : Bool) :
    w.padToByteBoundary force = { bits := paddedBits w.bits force } := by
  unfold Writer.padToByteBoundary paddedBits Writer.totalBits
  by_cases h : w.bits.length % 8 ≠ 0
  · rw [if_pos h, if_pos h, List.append_assoc, Writer.append, padPattern,
      show 8 - w.bits.length % 8 - 1 = 7 - w.bits.length % 8 by omega]
  · rw [if_neg h, if_neg h]
    cases force <;> rfl

/-- `finalize` keeps the padded bits and returns bytes whose stream they are (42_bitwriter.md R147). -/
theorem Writer.finalize_spec (w : Writer) (force : Bool) :
    (w.finalize force).2 = { bits := paddedBits w.bits force } ∧
    streamOf (w.finalize force).1 = paddedBits w.bits force := by
  simp only [Writer.finalize, Writer.padToByteBoundary_eq]
  exact ⟨trivial, streamOf_packBytes _ (paddedBits_length _ _)⟩

theorem Writer.writeBits_ok (w : Writer) {s : Octets} (h : isBitStr s = true) :
    w.writeBits s = .ok { bits := w.bits ++ bitsOf s } := by
  simp [Writer.writeBits, h, Writer.append]

theorem Writer.writeBits_bad (w : Writer) {s : Octets} (h : isBitStr s = false) :
    w.writeBits s = .error .invalidArgument := by
  simp [Writer.writeBits, h]

theorem isByteOperand_iff {n : Int} : isByteOperand n = true ↔ 0 ≤ n ∧ n ≤ 255 := by simp [isByteOperand]

theorem Writer.writeByte_ok (w : Writer) {n : Int} (h : 0 ≤ n ∧ n ≤ 255) :
    w.writeByte n = .ok { bits := w.bits ++ toBits n.toNat 8 } := by
  simp [Writer.writeByte, isByteOperand_iff.mpr h, Writer.append]

theorem Writer.writeByte_bad (w : Writer) {n : Int} (h : ¬ (0 ≤ n ∧ n ≤ 255)) :
    w.writeByte n = .error .invalidArgument := by
  have : isByteOperand n = false := by simpa [isByteOperand] using h
  simp [Writer.writeByte, this]

theorem Writer.pop_ok (kept out : Bits) :
    ({ bits := kept ++ out } : Writer).pop out.length = .ok (out, { bits := kept }) := by
  simp [Writer.pop, Writer.totalBits]

theorem Writer.pop_bad (w : Writer) {n : Int} (h : n < 0 ∨ (w.bits.length : Int) < n) :
    w.pop n = .error .invalidArgument := by
  simp [Writer.pop, Writer.totalBits, h]

/-- Whatever `pop` does. -/
theorem Writer.pop_cases (w : Writer) (n : Int) :
    w.pop n = .error .invalidArgument ∨ ∃ out kept, w.pop n = .ok (out, { bits := kept }) ∧ w.bits = kept ++ out ∧
      (out.length : Int) = n := by
  by_cases h : n < 0 ∨ (w.bits.length : Int) < n
  · exact .inl (w.pop_bad h)
  · refine .inr ⟨w.bits.drop (w.bits.length - n.toNat), w.bits.take (w.bits.length - n.toNat), ?_, by simp, ?_⟩
    · rw [Writer.pop, Writer.totalBits, if_neg h]
    · simp
      omega

/-! ## The laws of 42_bitwriter.md R148 -/

/-- How many bits the padding adds (law (1)). -/
theorem paddedBits_growth (w : Bits) (force : Bool) :
    (paddedBits w force).length = w.length +
      (if force = true ∧ w.length % 8 = 0 then 8 else (8 - w.length % 8) % 8) := by
  unfold paddedBits
  by_cases h : w.length % 8 = 0
  · cases force <;> simp [h]
  · simp [h]
    omega

/-- Law (1): the number of bits after each operation. -/
theorem Writer.length_laws (w : Writer) :
    (∀ s w', w.writeBits s = .ok w' → w'.totalBits = w.totalBits + s.length) ∧
    (∀ n w', w.writeByte n = .ok w' → w'.totalBits = w.totalBits + 8) ∧
    (∀ force, (w.finalize force).2 = w.padToByteBoundary force ∧
      (w.padToByteBoundary force).totalBits = w.totalBits +
        (if force = true ∧ w.totalBits % 8 = 0 then 8 else (8 - w.totalBits % 8) % 8)) ∧
    (∀ n out w', w.pop n = .ok (out, w') → (w'.totalBits : Int) = w.totalBits - n) := by
  refine ⟨fun s w' h => ?_, fun n w' h => ?_, fun force => ⟨rfl, ?_⟩, fun n out w' h => ?_⟩
  · unfold Writer.writeBits at h
    split at h <;> cases h
    simp [Writer.totalBits]
  · unfold Writer.writeByte at h
    split at h <;> cases h
    simp [Writer.totalBits]
  · rw [Writer.padToByteBoundary_eq]
    exact paddedBits_growth _ _
  · rcases w.pop_cases n with hp | ⟨out', kept, hp, hw, hn⟩ <;> rw [hp] at h <;> cases h
    simp only [Writer.totalBits, hw, List.length_append]
    omega

/-- Law (2): popping what was written returns it and restores the writer. -/
theorem Writer.pop_writeBits {w w' : Writer} {s : Octets} (h : w.writeBits s = .ok w') :
    w'.pop s.length = .ok (bitsOf s, w) ∧ str (bitsOf s) = s := by
  cases hs : isBitStr s with
  | false => rw [w.writeBits_bad hs] at h; cases h
  | true =>
    rw [w.writeBits_ok hs] at h
    cases h
    refine ⟨?_, str_bitsOf hs⟩
    rw [← bitsOf_length s]
    exact Writer.pop_ok w.bits (bitsOf s)

/-- Law (3): a writer that holds the stream of a byte array is packed to that array and gets no pad. -/
theorem Writer.finalize_writeBytes (bytes : Octets) :
    ({ bits := streamOf bytes } : Writer).finalize false = (bytes, { bits := streamOf bytes }) := by
  have hpad : paddedBits (streamOf bytes) false = streamOf bytes := by simp [paddedBits]
  simp only [Writer.finalize, Writer.padToByteBoundary_eq, hpad, packBytes_streamOf]

/-- Law (4): the bits of the packed bytes, read in stream order, are the bits that stay in the writer. -/
theorem Writer.readBack_finalize (w : Writer) (force : Bool) (i : Nat)
    (h : i < (w.finalize force).2.bits.length) :
    (w.finalize force).2.bits[i]? = some (streamBit (w.finalize force).1 i) := by
  obtain ⟨h2, hs⟩ := w.finalize_spec force
  have hbits : (w.finalize force).2.bits = streamOf (w.finalize force).1 := by rw [h2, hs]
  rw [hbits] at h ⊢
  exact streamOf_getElem? _ _ (by simpa using h)

end Sys2Proof.Machine
end

