-- ==== Sys2Proof/Laws/Codec.lean ====
section
/-! SUPPORT. The codec's functions against their declarative descriptions: the read loop cuts the stream, the lookup is
the inverse of the alphabet, a string decodes exactly when it is accepted (43_basen_codec.md). -/

namespace Sys2Proof.Machine

theorem symbolBits_pos (base : Base) : 1 ≤ symbolBits base := by cases base <;> decide

theorem symbolBits_le (base : Base) : symbolBits base ≤ 8 := by cases base <;> decide

theorem two_pow_symbolBits (base : Base) : 2 ^ symbolBits base = alphabetSize base := by cases base <;> rfl

/-! ## The read loop -/

/-- With a read for every bit that remains, the loop cuts the rest of the stream every `k` bits, zero bits after its
end (43_basen_codec.md R163). -/
theorem readSymbols_spec {k : Nat} (h1 : 1 ≤ k) (h8 : k ≤ 8) (buf : Octets) :
    ∀ (fuel p : Nat), p ≤ 8 * buf.length → 8 * buf.length ≤ p + fuel →
      (readSymbols k fuel { buffer := buf, bitPosition := p, truncate := false }).length
        = (8 * buf.length - p + k - 1) / k ∧
      ∀ i v, (readSymbols k fuel { buffer := buf, bitPosition := p, truncate := false })[i]? = some v →
        v = toNat (slice (streamOf buf ++ List.replicate 8 false) (p + i * k) k) := by
  intro fuel
  induction fuel with
  | zero =>
    intro p hp hf
    refine ⟨?_, by simp [readSymbols]⟩
    rw [readSymbols, show 8 * buf.length - p + k - 1 = k - 1 by omega, Nat.div_eq_of_lt (by omega)]
    rfl
  | succ fuel ih =>
    intro p hp hf
    rcases Nat.lt_or_ge p (8 * buf.length) with hlt | hge
    · have heof : Reader.eof { buffer := buf, bitPosition := p, truncate := false } = false := by
        simp [Reader.eof]
        omega
      have hread := Reader.readBits_ok { buffer := buf, bitPosition := p, truncate := false }
        (n := k) (by omega) (by omega) hlt rfl rfl
      simp only [Int.toNat_natCast, Bool.false_eq_true, if_false] at hread
      have hval : toNat (slice (streamOf buf) p (min k (8 * buf.length - p))) *
            2 ^ (k - min k (8 * buf.length - p))
          = toNat (slice (streamOf buf ++ List.replicate 8 false) p k) := by
        rcases Nat.le_total k (8 * buf.length - p) with hk | hk
        · rw [Nat.min_eq_left hk, slice_append_left _ _ _ _ (by simp; omega)]
          simp
        · rw [Nat.min_eq_right hk]
          have hdrop : slice (streamOf buf ++ List.replicate 8 false) p k
              = slice (streamOf buf) p (8 * buf.length - p) ++ List.replicate (k - (8 * buf.length - p)) false := by
            have hd : ((streamOf buf).drop p).length = 8 * buf.length - p := by simp
            simp only [slice]
            rw [List.drop_append_of_le_length (by simp; omega), List.take_append, hd, List.take_replicate,
              List.take_of_length_le (l := (streamOf buf).drop p) (i := k) (by omega),
              List.take_of_length_le (l := (streamOf buf).drop p) (by omega), Nat.min_eq_left (by omega)]
          rw [hdrop, toNat_append]
          simp
      rw [readSymbols, heof, if_neg (by simp), hread]
      obtain ⟨ihl, ihv⟩ := ih (p + min k (8 * buf.length - p)) (by omega) (by omega)
      refine ⟨?_, ?_⟩
      · rw [List.length_cons, ihl]
        rcases Nat.le_total k (8 * buf.length - p) with hk | hk
        · rw [Nat.min_eq_left hk, ← Nat.add_div_right _ (by omega)]
          congr 1
          omega
        · rw [Nat.min_eq_right hk, show 8 * buf.length - (p + (8 * buf.length - p)) + k - 1 = k - 1 by omega,
            Nat.div_eq_of_lt (by omega)]
          symm
          rw [Nat.div_eq_iff (by omega)]
          omega
      · intro i v hi
        cases i with
        | zero =>
          simp only [List.getElem?_cons_zero, Option.some.injEq] at hi
          rw [← hi, hval]
          simp
        | succ i =>
          simp only [List.getElem?_cons_succ] at hi
          have hv := ihv i v hi
          rcases Nat.le_total k (8 * buf.length - p) with hk | hk
          · rw [hv, Nat.min_eq_left hk]
            congr 2
            ring
          · have hlen := (List.getElem?_eq_some_iff.mp hi).1
            rw [ihl, Nat.min_eq_right hk,
              show 8 * buf.length - (p + (8 * buf.length - p)) + k - 1 = k - 1 by omega,
              Nat.div_eq_of_lt (by omega)] at hlen
            omega
    · have heof : Reader.eof { buffer := buf, bitPosition := p, truncate := false } = true := by
        simp [Reader.eof]
        omega
      rw [readSymbols, heof, if_pos rfl, show 8 * buf.length - p + k - 1 = k - 1 by omega,
        Nat.div_eq_of_lt (by omega)]
      simp

/-- `encodeRaw` is the raw encoding (43_basen_codec.md R163, R181). -/
theorem Codec.encodeRaw_spec (cfg : Codec) (bytes : Octets) :
    IsRawEncoding cfg.base bytes (cfg.encodeRaw bytes) := by
  obtain ⟨hl, hv⟩ := readSymbols_spec (symbolBits_pos cfg.base) (symbolBits_le cfg.base) bytes (8 * bytes.length) 0
    (by omega) (by omega)
  refine ⟨by simpa [Codec.encodeRaw, Reader.new] using hl, fun i v hi => ?_⟩
  simpa using hv i v hi

/-- Every symbol is below the alphabet's length. -/
theorem Codec.encodeRaw_lt (cfg : Codec) (bytes : Octets) : ∀ v ∈ cfg.encodeRaw bytes, v < alphabetSize cfg.base := by
  intro v hv
  obtain ⟨i, hi⟩ := List.getElem?_of_mem hv
  rw [(cfg.encodeRaw_spec bytes).2 i v hi, ← two_pow_symbolBits]
  refine lt_of_lt_of_le (toNat_lt _) (Nat.pow_le_pow_right (by omega) ?_)
  simp

/-! ## The lookup -/

theorem charEq_iff {base : Base} {a b : Byte} : charEq base a b = true ↔ charKey base a = charKey base b := by
  simp [charEq]

/-- What the lookup finds is equivalent to the character. -/
theorem Codec.lookup_some {cfg : Codec} {c : Byte} {i : Nat} (h : cfg.lookup c = some i) :
    ∃ a, cfg.alphabet[i]? = some a ∧ charKey cfg.base a = charKey cfg.base c := by
  rw [Codec.lookup, List.findIdx?_eq_some_iff_getElem] at h
  obtain ⟨hi, hp, -⟩ := h
  exact ⟨_, List.getElem?_eq_getElem hi, charEq_iff.mp hp⟩

theorem Codec.lookup_none {cfg : Codec} {c : Byte} :
    cfg.lookup c = none ↔ ∀ a ∈ cfg.alphabet, charKey cfg.base a ≠ charKey cfg.base c := by
  simp [Codec.lookup, List.findIdx?_eq_none_iff, charEq]

/-- Of a legal codec the lookup is the inverse of the alphabet (43_basen_codec.md R162). -/
theorem Codec.lookup_eq_some_iff {cfg : Codec} (hcfg : cfg.Inv) {c : Byte} {i : Nat} :
    cfg.lookup c = some i ↔ ∃ a, cfg.alphabet[i]? = some a ∧ charKey cfg.base a = charKey cfg.base c := by
  refine ⟨Codec.lookup_some, ?_⟩
  rintro ⟨a, hi, hac⟩
  obtain ⟨hlt, rfl⟩ := List.getElem?_eq_some_iff.mp hi
  rw [Codec.lookup, List.findIdx?_eq_some_iff_getElem]
  refine ⟨hlt, charEq_iff.mpr hac, fun j hj hp => ?_⟩
  have hjc := charEq_iff.mp hp
  exact List.pairwise_iff_getElem.mp hcfg.distinct j i (by omega) hlt hj (hjc.trans hac.symm)

/-! ## Acceptance -/

/-- The trailing run: what `padRun` counts is a maximal run of the pad character. -/
theorem Codec.padRun_spec {cfg : Codec} {pc : Byte} (hpc : cfg.padChar = some pc) (e : Octets) :
    ∃ body, e = body ++ List.replicate (cfg.padRun e) pc ∧ e.take (e.length - cfg.padRun e) = body ∧
      body.getLast? ≠ some pc := by
  have hrun : cfg.padRun e = (e.reverse.takeWhile (· == pc)).length := by simp [Codec.padRun, hpc]
  have hrep : e.reverse.takeWhile (· == pc) = List.replicate (cfg.padRun e) pc := by
    rw [hrun, List.eq_replicate_iff]
    exact ⟨rfl, fun b hb => by simpa using List.mem_takeWhile_imp hb⟩
  have hsplit : e = (e.reverse.dropWhile (· == pc)).reverse ++ List.replicate (cfg.padRun e) pc := by
    have h := congrArg List.reverse (List.takeWhile_append_dropWhile (p := (· == pc)) (l := e.reverse))
    rw [List.reverse_append, List.reverse_reverse, hrep, List.reverse_replicate] at h
    exact h.symm
  refine ⟨_, hsplit, ?_, ?_⟩
  · generalize (e.reverse.dropWhile (· == pc)).reverse = body at hsplit
    generalize cfg.padRun e = q at hsplit ⊢
    subst hsplit
    simp
  · rw [List.getLast?_reverse]
    intro h
    have := List.head?_dropWhile_not (· == pc) e.reverse
    rw [h] at this
    simp at this

/-- A body without the pad character, followed by a run of it: `padRun` counts exactly that run. -/
theorem Codec.padRun_append {cfg : Codec} {pc : Byte} (hpc : cfg.padChar = some pc) {body : Octets} (hb : pc ∉ body)
    (q : Nat) : cfg.padRun (body ++ List.replicate q pc) = q := by
  simp only [Codec.padRun, hpc, List.reverse_append, List.reverse_replicate]
  rw [List.takeWhile_append_of_pos (by simp +contextual [List.mem_replicate])]
  have : body.reverse.takeWhile (· == pc) = [] := by
    rw [List.takeWhile_eq_nil_iff]
    intro h hc
    simp at hc
    exact hb (hc ▸ by simp)
  simp [this]

theorem Codec.lookupAll_ok_iff (cfg : Codec) (body : Octets) (symbols : List Nat) :
    cfg.lookupAll body = .ok symbols ↔
      (∀ pc, cfg.padChar = some pc → pc ∉ body) ∧ List.Forall₂ (fun c v => cfg.lookup c = some v) body symbols := by
  induction body generalizing symbols with
  | nil => simp [Codec.lookupAll, eq_comm]
  | cons c rest ih =>
    rw [Codec.lookupAll]
    by_cases hp : cfg.padChar = some c
    · simp [hp]
    · rw [if_neg hp]
      cases hl : cfg.lookup c with
      | none => simp [List.forall₂_cons_left_iff, hl]
      | some j =>
        cases hr : cfg.lookupAll rest with
        | error kind =>
          simp only [reduceCtorEq, false_iff, not_and]
          intro hpad hall
          obtain ⟨v, vs, -, hvs, rfl⟩ := List.forall₂_cons_left_iff.mp hall
          have := (ih vs).mpr ⟨fun pc h => fun hm => hpad pc h (List.mem_cons_of_mem _ hm), hvs⟩
          rw [hr] at this
          cases this
        | ok js =>
          simp only [Except.ok.injEq]
          constructor
          · rintro rfl
            obtain ⟨hpad, hall⟩ := (ih js).mp hr
            refine ⟨fun pc h hm => ?_, .cons hl hall⟩
            rcases List.mem_cons.mp hm with rfl | hm
            · exact hp h
            · exact hpad pc h hm
          · rintro ⟨hpad, hall⟩
            obtain ⟨v, vs, hv, hvs, rfl⟩ := List.forall₂_cons_left_iff.mp hall
            have := (ih vs).mpr ⟨fun pc h => fun hm => hpad pc h (List.mem_cons_of_mem _ hm), hvs⟩
            rw [hr] at this
            rw [hl] at hv
            cases this
            cases hv
            rfl

theorem Codec.lookupAll_error (cfg : Codec) (body : Octets) (kind : ErrorKind)
    (h : cfg.lookupAll body = .error kind) : kind = .invalidFormat := by
  induction body with
  | nil => simp [Codec.lookupAll] at h
  | cons c rest ih =>
    rw [Codec.lookupAll] at h
    split at h
    · cases h; rfl
    · split at h
      · cases h; rfl
      · split at h
        · next hr => cases h; exact ih hr
        · cases h

theorem finalSymbolOk_iff (base : Base) (symbols : List Nat) :
    finalSymbolOk base symbols = true ↔
      ∀ last, symbols.getLast? = some last → last % 2 ^ (symbols.length * symbolBits base % 8) = 0 := by
  cases h : symbols.getLast? with
  | none => simp [finalSymbolOk, h]
  | some last =>
    simp [finalSymbolOk, h, nExtraBits, Nat.shiftLeft_eq, Nat.and_two_pow_sub_one_eq_mod]

/-- The only error of `decodeRaw` is `InvalidFormat` (60_exceptions.md R204). -/
theorem Codec.decodeRaw_error {cfg : Codec} {e : Octets} {kind : ErrorKind} (h : cfg.decodeRaw e = .error kind) :
    kind = .invalidFormat := by
  rw [Codec.decodeRaw] at h
  split at h
  · next hs =>
    cases h
    rw [Codec.stripPadding] at hs
    split at hs
    · cases hs; rfl
    · split at hs
      · cases hs; rfl
      · cases hs
  · split at h
    · next hl => cases h; exact cfg.lookupAll_error _ _ hl
    · split at h <;> cases h
      rfl

/-- `decodeRaw` succeeds only on accepted strings, with their symbols. -/
theorem Codec.decodeRaw_sound {cfg : Codec} {e : Octets} {symbols : List Nat} (h : cfg.decodeRaw e = .ok symbols) :
    AcceptedAs cfg e symbols := by
  rw [Codec.decodeRaw] at h
  split at h
  · cases h
  next body hs =>
    split at h
    · cases h
    next syms hl =>
      split at h
      · next hf =>
        cases h
        obtain ⟨hpad, hall⟩ := (cfg.lookupAll_ok_iff _ _).mp hl
        rw [Codec.stripPadding] at hs
        split at hs
        · cases hs
        next hq =>
          split at hs
          · cases hs
          next hlen =>
            cases hs
            refine ⟨_, cfg.padRun e, ?_, ?_, ?_, hall.imp fun _ _ h => Codec.lookup_some h,
              (finalSymbolOk_iff _ _).mp hf⟩
            · cases hpc : cfg.padChar with
              | none => simp [Codec.padRun, hpc]
              | some pc =>
                obtain ⟨body, he, hb, -⟩ := Codec.padRun_spec hpc e
                refine ⟨?_, hpad pc hpc⟩
                rw [hb]
                exact he
            · by_contra hcon
              push Not at hcon
              exact hq ⟨by omega, hcon.2⟩
            · intro hc
              by_contra hcon
              exact hlen ⟨hc, hcon⟩
      · cases h

/-- An accepted string of a legal codec decodes to its symbols. -/
theorem Codec.decodeRaw_complete {cfg : Codec} (hcfg : cfg.Inv) {e : Octets} {symbols : List Nat}
    (h : AcceptedAs cfg e symbols) : cfg.decodeRaw e = .ok symbols := by
  obtain ⟨body, q, hform, hrun, hlen, hall, hlast⟩ := h
  have hpadq : cfg.padRun e = q ∧ e.take (e.length - q) = body ∧ ∀ pc, cfg.padChar = some pc → pc ∉ body := by
    cases hpc : cfg.padChar with
    | none =>
      rw [hpc] at hform
      obtain ⟨rfl, rfl⟩ := hform
      simp [Codec.padRun, hpc]
    | some pc =>
      rw [hpc] at hform
      obtain ⟨rfl, hb⟩ := hform
      refine ⟨Codec.padRun_append hpc hb q, by simp, ?_⟩
      rintro _ ⟨⟩
      exact hb
  obtain ⟨hq, hbody, hpad⟩ := hpadq
  have hstrip : cfg.stripPadding e = .ok body := by
    rw [Codec.stripPadding, hq, if_neg (by rintro ⟨h0, hn⟩; rcases hrun with rfl | hr; exacts [absurd h0 (by omega), hn hr]),
      if_neg (by rintro ⟨hc, hn⟩; exact hn (hlen hc)), hbody]
  have hlook : cfg.lookupAll body = .ok symbols :=
    (cfg.lookupAll_ok_iff _ _).mpr ⟨hpad, hall.imp fun _ _ h => (Codec.lookup_eq_some_iff hcfg).mpr h⟩
  rw [Codec.decodeRaw, hstrip]
  dsimp only
  rw [hlook]
  dsimp only
  rw [if_pos ((finalSymbolOk_iff _ _).mpr hlast)]

theorem Codec.decodeRaw_ok_iff {cfg : Codec} (hcfg : cfg.Inv) {e : Octets} {symbols : List Nat} :
    cfg.decodeRaw e = .ok symbols ↔ AcceptedAs cfg e symbols :=
  ⟨Codec.decodeRaw_sound, Codec.decodeRaw_complete hcfg⟩

/-- Every symbol of a decoded string is below the alphabet's length. -/
theorem AcceptedAs.symbol_lt {cfg : Codec} (hcfg : cfg.Inv) {e : Octets} {symbols : List Nat}
    (h : AcceptedAs cfg e symbols) : ∀ v ∈ symbols, v < alphabetSize cfg.base := by
  obtain ⟨body, -, -, -, -, hall, -⟩ := h
  intro v hv
  obtain ⟨i, hi⟩ := List.getElem?_of_mem hv
  have hlt := (List.getElem?_eq_some_iff.mp hi).1
  obtain ⟨a, ha, -⟩ := (List.forall₂_iff_get.mp hall).2 i (by rw [hall.length_eq]; exact hlt) hlt
  rw [List.getElem?_eq_getElem hlt, Option.some.injEq] at hi
  rw [List.get_eq_getElem, hi] at ha
  rw [← hcfg.size]
  exact (List.getElem?_eq_some_iff.mp ha).1

/-! ## What encode and decode answer -/

/-- The symbols of a raw encoding are alphabet indices, so each has its character. -/
theorem Codec.symbolChar_spec {cfg : Codec} (hcfg : cfg.Inv) {v : Nat} (h : v < alphabetSize cfg.base) :
    cfg.alphabet[v]? = some (cfg.symbolChar v) := by
  rw [← hcfg.size] at h
  simp [Codec.symbolChar, List.getD_eq_getElem?_getD, List.getElem?_eq_getElem h]

theorem Codec.symbolChar_mem {cfg : Codec} (hcfg : cfg.Inv) {v : Nat} (h : v < alphabetSize cfg.base) :
    cfg.symbolChar v ∈ cfg.alphabet :=
  List.mem_of_getElem? (Codec.symbolChar_spec hcfg h)

/-- `encode` is an encoding (43_basen_codec.md R164). -/
theorem Codec.encode_spec {cfg : Codec} (hcfg : cfg.Inv) (bytes : Octets) : IsEncoding cfg bytes (cfg.encode bytes) := by
  refine ⟨cfg.encodeRaw bytes, (cfg.encodeRaw bytes).map cfg.symbolChar, cfg.encodeRaw_spec bytes, ?_, ?_⟩
  · have hlt := cfg.encodeRaw_lt bytes
    generalize cfg.encodeRaw bytes = raw at hlt
    induction raw with
    | nil => exact .nil
    | cons v vs ih =>
      exact .cons (Codec.symbolChar_spec hcfg (hlt v (by simp))) (ih fun w hw => hlt w (by simp [hw]))
  · cases hpc : cfg.padChar with
    | none => simp [Codec.encode, hpc]
    | some pc =>
      have hg : 0 < groupSize cfg.base := by cases cfg.base <;> decide
      have hmod := Nat.mod_lt (cfg.encodeRaw bytes).length hg
      have hdm := Nat.div_add_mod (cfg.encodeRaw bytes).length (groupSize cfg.base)
      by_cases hx : (cfg.encodeRaw bytes).length % groupSize cfg.base = 0
      · exact ⟨0, by simp [Codec.encode, hpc, hx], by simp [Codec.encode, hpc, hx], hg⟩
      · refine ⟨groupSize cfg.base - (cfg.encodeRaw bytes).length % groupSize cfg.base,
          by simp [Codec.encode, hpc, hx], ?_, by omega⟩
        have hlen : (cfg.encode bytes).length = groupSize cfg.base * ((cfg.encodeRaw bytes).length / groupSize cfg.base + 1) := by
          simp only [Codec.encode, hpc, List.length_map, ne_eq, hx, not_false_eq_true, if_true, List.length_append,
            List.length_replicate]
          rw [Nat.mul_add]
          omega
        rw [hlen, Nat.mul_mod_right]

/-- The concatenated codes have `k` bits a symbol. -/
theorem symbolCodes_length (base : Base) (symbols : List Nat) :
    (symbols.flatMap fun v => toBits v (symbolBits base)).length = symbols.length * symbolBits base := by
  induction symbols with
  | nil => simp
  | cons v l ih => simp [List.flatMap_cons, ih, Nat.add_mul, Nat.add_comm]

/-- The bits `decode` writes are the symbols' codes without the extra bits, a whole number of bytes
(43_basen_codec.md R168). -/
theorem symbolStream_eq (base : Base) (symbols : List Nat) (h : ¬ Overcut base symbols) :
    symbolStream base symbols = (symbols.flatMap fun v => toBits v (symbolBits base)).take
      (8 * (symbols.length * symbolBits base / 8)) := by
  unfold Overcut at h
  rcases List.eq_nil_or_concat symbols with rfl | ⟨init, last, rfl⟩
  · simp [symbolStream]
  · simp only [List.concat_eq_append] at h ⊢
    have hlen : (init ++ [last]).length * symbolBits base = init.length * symbolBits base + symbolBits base := by
      simp [Nat.add_mul]
    rw [hlen] at h ⊢
    simp only [symbolStream, List.dropLast_concat, List.getLast?_concat, nExtraBits, hlen, List.flatMap_append,
      List.flatMap_cons, List.flatMap_nil, List.append_nil]
    have hi := symbolCodes_length base init
    rw [List.take_append, hi, List.take_of_length_le (l := init.flatMap _) (by rw [hi]; omega)]
    congr 2
    omega

/-- `decode` of an accepted string without an overcut (43_basen_codec.md R168). -/
theorem Codec.decode_spec {cfg : Codec} {e : Octets} {symbols : List Nat} (h : cfg.decodeRaw e = .ok symbols)
    (ho : ¬ Overcut cfg.base symbols) : ∃ out, cfg.decode e = .bytes out ∧ IsDecoding cfg.base symbols out := by
  refine ⟨((Writer.new.append (symbolStream cfg.base symbols)).finalize false).1, ?_, ?_⟩
  · rw [Codec.decode, h]
    exact if_neg ho
  · have hbits : (Writer.new.append (symbolStream cfg.base symbols)).bits = symbolStream cfg.base symbols := by
      simp [Writer.new]
    have hlen : (symbolStream cfg.base symbols).length = 8 * (symbols.length * symbolBits cfg.base / 8) := by
      rw [symbolStream_eq _ _ ho, List.length_take, symbolCodes_length]
      omega
    have hpad : paddedBits (symbolStream cfg.base symbols) false = symbolStream cfg.base symbols := by
      simp [paddedBits, hlen]
    have hs := ((Writer.new.append (symbolStream cfg.base symbols)).finalize_spec false).2
    rw [hbits, hpad] at hs
    have hl := congrArg List.length hs
    rw [streamOf_length, hlen] at hl
    refine ⟨by omega, ?_⟩
    rw [hs, hl]
    exact symbolStream_eq _ _ ho

end Sys2Proof.Machine
end

