-- ==== Sys2Proof/Laws/Decode.lean ====
section
/-! SUPPORT. The fields of a header word as numbers, and what decoding a header says of them
(30_encoding.md R61 to R65). -/

namespace Sys2Proof
theorem Opcode.number_lt (op : Opcode) : op.number < 64 := by cases op <;> decide

theorem encodeHeader_toNat (op : Opcode) {slot : Nat} (hs : slot < 16) (f p b : Bool) :
    (encodeHeader op slot f p b).toNat =
      op.number * 2 ^ 24 + slot * 2 ^ 20 + b.toNat * 2 ^ 18 + p.toNat * 2 ^ 17 + f.toNat * 2 ^ 16 := by
  have := op.number_lt
  have := f.toNat_le
  have := p.toNat_le
  have := b.toNat_le
  rw [encodeHeader, BitVec.toNat_ofNat, Nat.mod_eq_of_lt (by omega)]

theorem Header.unit_eq (h : BitVec 32) : Header.unit h = h.toNat / 2 ^ 28 := by
  have := h.isLt
  simp [Header.unit, BitVec.extractLsb', Nat.shiftRight_eq_div_pow]
  omega

theorem Header.func_eq (h : BitVec 32) : Header.func h = h.toNat / 2 ^ 24 % 16 := by
  simp [Header.func, BitVec.extractLsb', Nat.shiftRight_eq_div_pow]

theorem Header.slot_eq (h : BitVec 32) : Header.slot h = h.toNat / 2 ^ 20 % 16 := by
  simp [Header.slot, BitVec.extractLsb', Nat.shiftRight_eq_div_pow]

theorem Header.reservedLow_eq (h : BitVec 32) : Header.reservedLow h = h.toNat % 2 ^ 16 := by
  simp [Header.reservedLow, BitVec.extractLsb']

theorem Header.bit_eq (h : BitVec 32) (i : Nat) : h.getLsbD i = decide (h.toNat / 2 ^ i % 2 = 1) := by
  rw [← BitVec.testBit_toNat, Nat.testBit_eq_decide_div_mod_eq]

theorem bool_of_toNat {b c : Bool} (h : b.toNat = c.toNat) : b = c := by
  cases b <;> cases c <;> simp_all

theorem Header.encode_fields (op : Opcode) {slot : Nat} (hs : slot < 16) (f p b : Bool) :
    Header.unit (encodeHeader op slot f p b) = op.number / 16 ∧
    Header.func (encodeHeader op slot f p b) = op.number % 16 ∧
    Header.slot (encodeHeader op slot f p b) = slot ∧
    Header.flagF (encodeHeader op slot f p b) = f ∧
    Header.flagP (encodeHeader op slot f p b) = p ∧
    Header.flagB (encodeHeader op slot f p b) = b ∧
    Header.reservedHigh (encodeHeader op slot f p b) = false ∧
    Header.reservedLow (encodeHeader op slot f p b) = 0 := by
  have h := encodeHeader_toNat op hs f p b
  have := op.number_lt
  have hf := f.toNat_le
  have hp := p.toNat_le
  have hb := b.toNat_le
  simp only [Header.flagF, Header.flagP, Header.flagB, Header.reservedHigh, Header.bit_eq, Header.unit_eq, Header.func_eq,
    Header.slot_eq, Header.reservedLow_eq, h]
  refine ⟨by omega, by omega, by omega, ?_, ?_, ?_, ?_, by omega⟩
  · cases f <;> simp <;> omega
  · cases p <;> simp <;> omega
  · cases b <;> simp <;> omega
  · simp; omega

theorem toNat_decide_odd (n : Nat) : (decide (n % 2 = 1)).toNat = n % 2 := by
  rcases Nat.mod_two_eq_zero_or_one n with h | h <;> simp [h]

/-- A header is the sum of its fields (30_encoding.md R61). -/
theorem Header.fields_sum (h : BitVec 32) :
    h.toNat = Header.unit h * 2 ^ 28 + Header.func h * 2 ^ 24 + Header.slot h * 2 ^ 20
      + (Header.reservedHigh h).toNat * 2 ^ 19 + (Header.flagB h).toNat * 2 ^ 18 + (Header.flagP h).toNat * 2 ^ 17
      + (Header.flagF h).toNat * 2 ^ 16 + Header.reservedLow h := by
  have hlt := h.isLt
  simp only [Header.flagF, Header.flagP, Header.flagB, Header.reservedHigh, Header.bit_eq, Header.unit_eq,
    Header.func_eq, Header.slot_eq, Header.reservedLow_eq, toNat_decide_odd]
  omega

/-- The unit and function numbers, and `B` for the default codecs, fix the row (30_encoding.md R63). -/
theorem Opcode.ofFields_ok_iff (u f : Nat) (b : Bool) (op : Opcode) :
    Opcode.ofFields u f b = .ok op ↔
      op.number = u * 16 + f ∧ f < 16 ∧
        (op ∈ [.enc32, .dec32, .valid32] → b = false) ∧ (op ∈ [.enc64, .dec64, .valid64] → b = true) := by
  constructor
  · intro h
    unfold Opcode.ofFields at h
    split at h <;> first | (simp at h; done) | (cases b <;> cases h <;> decide)
  · rintro ⟨hn, hf, h32, h64⟩
    obtain rfl : u = op.number / 16 := by omega
    obtain rfl : f = op.number % 16 := by omega
    cases op <;> cases b <;> simp at h32 h64 ⊢ <;> rfl

/-- What it means that a header selects a row: the fields are the row's and everything the row does not use is zero
(30_encoding.md R63 to R65, R72 (a)). -/
theorem decodeOpcode_ok_iff (h : BitVec 32) (op : Opcode) :
    decodeOpcode h = .ok op ↔
      Opcode.ofFields (Header.unit h) (Header.func h) (Header.flagB h) = .ok op ∧
      Header.reservedHigh h = false ∧ Header.reservedLow h = 0 ∧
      (op.usesF = false → Header.flagF h = false) ∧ (op.usesP = false → Header.flagP h = false) ∧
      (op.usesB = false → Header.flagB h = false) ∧ (op.usesSlot = false → Header.slot h = 0) := by
  unfold decodeOpcode
  cases hop : Opcode.ofFields (Header.unit h) (Header.func h) (Header.flagB h) with
  | error e => simp
  | ok op' =>
    cases Header.reservedHigh h <;> cases Header.flagF h <;> cases Header.flagP h <;> cases Header.flagB h <;>
    by_cases h0 : Header.reservedLow h = 0 <;> by_cases hs : Header.slot h = 0 <;> simp [h0, hs] <;> grind

/-- The header an encoder writes selects its row, where only the fields the row uses are set. -/
theorem decodeOpcode_encodeHeader (op : Opcode) {slot : Nat} (hs : slot < 16) {f p b : Bool}
    (hf : op.usesF = false → f = false) (hp : op.usesP = false → p = false) (hb : op.usesB = false → b = false)
    (h32 : op ∈ [.enc32, .dec32, .valid32] → b = false) (h64 : op ∈ [.enc64, .dec64, .valid64] → b = true)
    (hslot : op.usesSlot = false → slot = 0) : decodeOpcode (encodeHeader op slot f p b) = .ok op := by
  have hn := op.number_lt
  obtain ⟨h1, h2, h3, h4, h5, h6, h7, h8⟩ := Header.encode_fields op hs f p b
  rw [decodeOpcode_ok_iff, Opcode.ofFields_ok_iff, h1, h2, h3, h4, h5, h6, h7, h8]
  exact ⟨⟨by omega, by omega, h32, h64⟩, rfl, rfl, hf, hp, hb, hslot⟩

/-- A header that selects a row is the one the encoder writes of its fields. -/
theorem eq_encodeHeader_of_decodeOpcode {h : BitVec 32} {op : Opcode} (hop : decodeOpcode h = .ok op) :
    h = encodeHeader op (Header.slot h) (Header.flagF h) (Header.flagP h) (Header.flagB h) := by
  rw [decodeOpcode_ok_iff, Opcode.ofFields_ok_iff] at hop
  obtain ⟨⟨hn, -, -, -⟩, hrh, hrl, -⟩ := hop
  have hslot : Header.slot h < 16 := by
    rw [Header.slot_eq]
    omega
  have hsum := Header.fields_sum h
  apply BitVec.eq_of_toNat_eq
  rw [encodeHeader_toNat op hslot, hn]
  rw [hsum, hrh, hrl, Bool.toNat_false]
  ring

/-- A packet decodes to the command its row makes of its fields, operands and payloads. -/
theorem decode_ok_iff (pk : Packet) (i : Instr) :
    decode pk = .ok i ↔ ∃ op, decodeOpcode pk.header = .ok op ∧
      op.assemble (Header.slot pk.header) (Header.flagF pk.header) (Header.flagP pk.header)
        (Header.flagB pk.header) pk.operands pk.payloads = some i := by
  unfold decode
  cases decodeOpcode pk.header with
  | error e => simp
  | ok op => dsimp only; split <;> simp_all

/-- A header that selects no row rejects the packet, whatever follows it. -/
theorem decode_error_of_header {h : BitVec 32} {cause : Illegal} (hop : decodeOpcode h = .error cause)
    (operands : List Int) (payloads : List Octets) : decode ⟨h, operands, payloads⟩ = .error cause := by
  simp only [decode, hop]

/-- Decoding a packet with an encoded header is assembling its row's command. -/
theorem decode_encodeHeader {op : Opcode} {slot : Nat} {f p b : Bool} {operands : List Int} {payloads : List Octets}
    {i : Instr} (hs : slot < 16) (hop : decodeOpcode (encodeHeader op slot f p b) = .ok op)
    (hi : op.assemble slot f p b operands payloads = some i) :
    decode ⟨encodeHeader op slot f p b, operands, payloads⟩ = .ok i := by
  obtain ⟨-, -, h3, h4, h5, h6, -, -⟩ := Header.encode_fields op hs f p b
  exact (decode_ok_iff _ _).mpr ⟨op, hop, by simp only [h3, h4, h5, h6, hi]⟩

/-- A row makes a command of as many operands and payloads as it takes, and of no other number. -/
theorem Opcode.assemble_isSome_iff (op : Opcode) (slot : Nat) (f p b : Bool) (operands : List Int)
    (payloads : List Octets) :
    (op.assemble slot f p b operands payloads).isSome ↔
      operands.length = op.operandCount ∧ payloads.length = op.payloadCount p := by
  rcases operands with - | ⟨x, - | ⟨y, - | ⟨z, - | ⟨w, operands⟩⟩⟩⟩ <;>
  rcases payloads with - | ⟨a, - | ⟨c, - | ⟨d, payloads⟩⟩⟩ <;> cases p <;> cases op <;>
    simp [Opcode.assemble, Opcode.operandCount, Opcode.payloadCount]

/-! ## The mask and match words, field by field -/

theorem eq_iff_fields (x y : BitVec 32) :
    x = y ↔ x.extractLsb' 24 8 = y.extractLsb' 24 8 ∧ x.extractLsb' 20 4 = y.extractLsb' 20 4 ∧
      x.extractLsb' 19 1 = y.extractLsb' 19 1 ∧ x.extractLsb' 18 1 = y.extractLsb' 18 1 ∧
      x.extractLsb' 17 1 = y.extractLsb' 17 1 ∧ x.extractLsb' 16 1 = y.extractLsb' 16 1 ∧
      x.extractLsb' 0 16 = y.extractLsb' 0 16 := by
  constructor
  · rintro rfl
    simp
  · simp only [BitVec.toNat_eq, BitVec.extractLsb'_toNat, Nat.shiftRight_eq_div_pow]
    omega

/-- A row selects a header when each field of it, masked, is the row's (30_encoding.md R80). -/
theorem Row.selects_iff (row : Row) (h : BitVec 32) :
    row.selects h = true ↔
      h.extractLsb' 24 8 &&& row.mask.extractLsb' 24 8 = row.pattern.extractLsb' 24 8 ∧
      h.extractLsb' 20 4 &&& row.mask.extractLsb' 20 4 = row.pattern.extractLsb' 20 4 ∧
      h.extractLsb' 19 1 &&& row.mask.extractLsb' 19 1 = row.pattern.extractLsb' 19 1 ∧
      h.extractLsb' 18 1 &&& row.mask.extractLsb' 18 1 = row.pattern.extractLsb' 18 1 ∧
      h.extractLsb' 17 1 &&& row.mask.extractLsb' 17 1 = row.pattern.extractLsb' 17 1 ∧
      h.extractLsb' 16 1 &&& row.mask.extractLsb' 16 1 = row.pattern.extractLsb' 16 1 ∧
      h.extractLsb' 0 16 &&& row.mask.extractLsb' 0 16 = row.pattern.extractLsb' 0 16 := by
  simp only [Row.selects, beq_iff_eq, eq_iff_fields (h &&& row.mask), BitVec.extractLsb'_and]

/-- What each row's words say of each field: the row's number, the bits it uses free, the others 0, but for the flag
that selects between the default codecs. -/
theorem opcodeTable_fields : ∀ row ∈ opcodeTable,
    (row.mask.extractLsb' 24 8 = BitVec.allOnes 8 ∧
      row.pattern.extractLsb' 24 8 = BitVec.ofNat 8 row.opcode.number) ∧
    (row.mask.extractLsb' 20 4 = (if row.opcode.usesSlot then 0#4 else BitVec.allOnes 4) ∧
      row.pattern.extractLsb' 20 4 = 0#4) ∧
    (row.mask.extractLsb' 19 1 = BitVec.allOnes 1 ∧ row.pattern.extractLsb' 19 1 = 0#1) ∧
    (row.mask.extractLsb' 18 1 = (if row.opcode = .cdNew then 0#1 else BitVec.allOnes 1) ∧
      row.pattern.extractLsb' 18 1 = BitVec.ofBool (row.opcode ∈ [.enc64, .dec64, .valid64])) ∧
    (row.mask.extractLsb' 17 1 = (if row.opcode.usesP then 0#1 else BitVec.allOnes 1) ∧
      row.pattern.extractLsb' 17 1 = 0#1) ∧
    (row.mask.extractLsb' 16 1 = (if row.opcode.usesF then 0#1 else BitVec.allOnes 1) ∧
      row.pattern.extractLsb' 16 1 = 0#1) ∧
    (row.mask.extractLsb' 0 16 = BitVec.allOnes 16 ∧ row.pattern.extractLsb' 0 16 = 0#16) := by
  decide

end Sys2Proof
end

