-- ==== Sys2Proof/Laws/Exec.lean ====
section
/-! SUPPORT. Everything a command can do, said once: `exec_effect` names, for every command and state, the one of seven
effects it has; rules about all commands are case splits over `Effect`, not over `exec`. -/

namespace Sys2Proof.Machine

/-- Why a command may raise an error kind. -/
inductive RaiseCause (i : Instr) (s : State) : ErrorKind → Prop where
  | own {kind : ErrorKind} (h : kind ∈ ownErrors i) : RaiseCause i s kind
  | missing {array : SlotArray} {k : Nat} (hslot : i.slotRef = some (array, k)) (h : s.SlotMissing array k) :
      RaiseCause i s .illegalCommand
  | empty {array : SlotArray} {k : Nat} (hslot : i.slotRef = some (array, k)) (hnew : i.isConstructor = false)
      (h : s.SlotEmpty array k) : RaiseCause i s .noInstance
  | illegalReader {k : Nat} {force : Bool} {r : Reader} (hcmd : i = .rdAlign k force)
      (hr : s.rd[k]? = some (some r)) (h : ¬ r.Inv) : RaiseCause i s .endOfBuffer

/-- The effects a command can have in a state. -/
inductive Effect (i : Instr) (s : State) : StepOutcome → Prop where
  | raised {kind : ErrorKind} (cause : RaiseCause i s kind) : Effect i s (s.raise kind)
  | answered {result : Option Result} (hkind : Result.HasKind result i.resultKind) : Effect i s (s.reply result)
  | readerMoved {k : Nat} {r : Reader} {m : Nat} {result : Option Result}
      (hcmd : (∃ n, i = .rdBits k n) ∨ i = .rdByte k ∨ ∃ force, i = .rdAlign k force)
      (hr : s.rd[k]? = some (some r)) (hm : 1 ≤ m ∧ m ≤ 8 ∧ r.bitPosition + m ≤ 8 * r.buffer.length)
      (hkind : Result.HasKind result i.resultKind) :
      Effect i s ((s.setReader k { r with bitPosition := r.bitPosition + m }).reply result)
  | readerNew {k : Nat} {truncate : Bool} {bytes : Octets} (hcmd : i = .rdNew k truncate bytes)
      (hk : k < s.rd.length) : Effect i s ((s.setReader k (Reader.new bytes truncate)).reply none)
  | writerSet {k : Nat} {w : Writer} {result : Option Result} (hslot : i.slotRef = some (.wr, k))
      (hk : k < s.wr.length) (hkind : Result.HasKind result i.resultKind) :
      Effect i s ((s.setWriter k w).reply result)
  | codecNew {k : Nat} {c : Codec} (hslot : i.slotRef = some (.cd, k)) (hnew : i.isConstructor = true) (hc : c.Inv)
      (hk : k < s.cd.length) (hkind : i.resultKind = .nothing) : Effect i s ((s.setCodec k c).reply none)
  | overcut {cfg : Codec} {e : Octets} {symbols : List Nat} (hdec : DecodesWith s i cfg e)
      (hacc : AcceptedAs cfg e symbols) (hover : Overcut cfg.base symbols) : Effect i s (.refused .decodeOvercut)

/-! ## One lemma a command -/

theorem Result.ofBool_hasKind (b : Bool) : Result.HasKind (some (Result.ofBool b)) .bool :=
  .inr ⟨rfl, Bool.toNat_le b⟩

/-- Construction succeeds exactly on the legal configurations (43_basen_codec.md R161). -/
theorem Codec.construct_ok {base : Base} {strict : Bool} {alphabet : Octets} {pad : Option Octets} {c : Codec}
    (h : Codec.construct base strict alphabet pad = .ok c) :
    c.Inv ∧ c.base = base ∧ c.strict = strict ∧ c.alphabet = alphabet ∧ pad = c.padChar.map fun x => [x] := by
  unfold Codec.construct at h
  split at h
  · cases h
  next hsize =>
    split at h
    · cases h
    next hdist =>
      have hdist' : alphabet.Pairwise fun a b => charKey base a ≠ charKey base b :=
        (not_not.mp hdist).imp fun hab => by simpa [charEq] using hab
      split at h
      · cases h
        exact ⟨⟨not_not.mp hsize, hdist', by simp⟩, rfl, rfl, rfl, rfl⟩
      · split at h
        · cases h
        next hmem =>
          cases h
          refine ⟨⟨not_not.mp hsize, hdist', ?_⟩, rfl, rfl, rfl, rfl⟩
          rintro _ ⟨⟩ hm
          exact hmem (by simpa using hm)
      · cases h

theorem Codec.construct_error {base : Base} {strict : Bool} {alphabet : Octets} {pad : Option Octets}
    {kind : ErrorKind} (h : Codec.construct base strict alphabet pad = .error kind) : kind = .invalidArgument := by
  unfold Codec.construct at h
  split at h
  · cases h; rfl
  · split at h
    · cases h; rfl
    · split at h
      · cases h
      · split at h <;> cases h
        rfl
      · cases h; rfl

theorem Codec.construct_of_inv {base : Base} {strict : Bool} {alphabet : Octets} {padChar : Option Byte}
    (h : ({ base := base, alphabet := alphabet, padChar := padChar, strict := strict } : Codec).Inv) :
    Codec.construct base strict alphabet (padChar.map fun x => [x])
      = .ok { base := base, alphabet := alphabet, padChar := padChar, strict := strict } := by
  have hdist : alphabet.Pairwise fun a b => charEq base a b = false :=
    h.distinct.imp fun hab => by simpa [charEq] using hab
  unfold Codec.construct
  rw [if_neg (not_not.mpr h.size), if_neg (not_not.mpr hdist)]
  cases padChar with
  | none => rfl
  | some c =>
    have := h.pad c rfl
    simp only [Option.map_some]
    rw [if_neg (by simpa using this)]

/-- The three outcomes of `decode` (43_basen_codec.md R168, R169). -/
theorem Codec.decode_cases (cfg : Codec) (e : Octets) :
    cfg.decode e = .error .invalidFormat ∨
    (∃ symbols, cfg.decodeRaw e = .ok symbols ∧ Overcut cfg.base symbols ∧ cfg.decode e = .overcut) ∨
    (∃ symbols b, cfg.decodeRaw e = .ok symbols ∧ ¬ Overcut cfg.base symbols ∧ cfg.decode e = .bytes b) := by
  cases h : cfg.decodeRaw e with
  | error kind =>
    obtain rfl := Codec.decodeRaw_error h
    exact .inl (by simp [Codec.decode, h])
  | ok symbols =>
    by_cases ho : symbolBits cfg.base < nExtraBits cfg.base symbols.length
    · exact .inr (.inl ⟨symbols, rfl, ho, by simp [Codec.decode, h, ho]⟩)
    · exact .inr (.inr ⟨symbols, ((Writer.new.append (symbolStream cfg.base symbols)).finalize false).1, rfl, ho, by
        simp only [Codec.decode, h, if_neg ho]⟩)

theorem State.replyDecoded_effect {i : Instr} {s : State} {cfg : Codec} {e : Octets} (hdec : DecodesWith s i cfg e)
    (hown : ownErrors i = [.invalidFormat]) (hkind : i.resultKind = .bytes) :
    Effect i s (s.replyDecoded (cfg.decode e)) := by
  rcases cfg.decode_cases e with h | ⟨symbols, hraw, hover, h⟩ | ⟨symbols, b, hraw, -, h⟩
  · rw [h]
    exact .raised (.own (by simp [hown]))
  · rw [h]
    exact .overcut hdec (Codec.decodeRaw_sound hraw) hover
  · rw [h]
    exact .answered (.inr (.inl hkind))

variable (s : State)

theorem execMaskbits_effect (byte i0 i1 : Int) :
    Effect (.maskbits byte i0 i1) s (execMaskbits byte i0 i1 s) := by
  unfold execMaskbits maskBits
  split
  · exact .answered (.inl rfl)
  next kind h =>
    obtain rfl : kind = .invalidArgument := by
      split at h
      · cases h; rfl
      · split at h <;> cases h
        rfl
    exact .raised (.own (by simp [ownErrors]))

theorem execPadbits_effect (bitString : Octets) (n : Int) :
    Effect (.padbits bitString n) s (execPadbits bitString n s) := by
  unfold execPadbits padBits
  split
  · exact .answered (.inl rfl)
  next kind h =>
    obtain rfl : kind = .invalidArgument := by
      split at h
      · cases h; rfl
      · dsimp only at h
        split at h
        · cases h
        · split at h
          · split at h <;> cases h
          · cases h
    exact .raised (.own (by simp [ownErrors]))

theorem execByte2bits_effect (byte n : Int) (prefixed : Bool) :
    Effect (.byte2bits byte n prefixed) s (execByte2bits byte n prefixed s) := by
  unfold execByte2bits byteToBits
  split
  · exact .answered (.inl rfl)
  next kind h =>
    obtain rfl : kind = .invalidArgument := by
      split at h
      · cases h; rfl
      · split at h <;> cases h
        rfl
    exact .raised (.own (by simp [ownErrors]))

theorem execGetbit_effect (bytes : Octets) (i : Int) :
    Effect (.getbit bytes i) s (execGetbit bytes i s) := by
  unfold execGetbit getBit
  split
  · exact .answered (Result.ofBool_hasKind _)
  next kind h =>
    obtain rfl : kind = .invalidArgument := by
      split at h <;> cases h
      rfl
    exact .raised (.own (by simp [ownErrors]))

theorem execRdNew_effect (k : Nat) (truncate : Bool) (bytes : Octets) :
    Effect (.rdNew k truncate bytes) s (execRdNew k truncate bytes s) := by
  unfold execRdNew
  rcases Nat.lt_or_ge k s.rd.length with h | h
  · rw [State.withSlot_present h]
    exact .readerNew rfl h
  · rw [State.withSlot_missing h]
    exact .raised (.missing (array := .rd) rfl h)

theorem execRdEof_effect (k : Nat) : Effect (.rdEof k) s (execRdEof k s) := by
  unfold execRdEof
  rcases s.withReader_cases k _ with ⟨h, hs⟩ | ⟨h, hs⟩ | ⟨r, h, hs⟩ <;> rw [hs]
  · exact .raised (.missing (array := .rd) rfl h)
  · exact .raised (.empty (array := .rd) rfl rfl h)
  · exact .answered (Result.ofBool_hasKind _)

theorem execRdBits_effect (k : Nat) (n : Int) : Effect (.rdBits k n) s (execRdBits k n s) := by
  unfold execRdBits
  rcases s.withReader_cases k _ with ⟨h, hs⟩ | ⟨h, hs⟩ | ⟨r, h, hs⟩ <;> rw [hs]
  · exact .raised (.missing (array := .rd) rfl h)
  · exact .raised (.empty (array := .rd) rfl rfl h)
  · rcases r.readBits_cases n with ⟨kind, hb, hk⟩ | ⟨v, m, hb, h1, h8, hp, hm, -⟩ <;> rw [hb]
    · refine .raised (.own ?_)
      rcases hk with ⟨rfl, -⟩ | ⟨rfl, -⟩ <;> simp [ownErrors]
    · exact .readerMoved (.inl ⟨n, rfl⟩) h (by omega) (.inl rfl)

theorem execRdAlign_effect (k : Nat) (force : Bool) : Effect (.rdAlign k force) s (execRdAlign k force s) := by
  unfold execRdAlign
  rcases s.withReader_cases k _ with ⟨h, hs⟩ | ⟨h, hs⟩ | ⟨r, h, hs⟩ <;> rw [hs]
  · exact .raised (.missing (array := .rd) rfl h)
  · exact .raised (.empty (array := .rd) rfl rfl h)
  · rcases r.moveToByteBoundary_cases force with ⟨hb, hp, hf⟩ | ⟨hb, -, -⟩ | ⟨m, hb, h1, h8, hp, -, -⟩ <;> rw [hb]
    · cases force with
      | true => exact .raised (.own (by simp [ownErrors]))
      | false =>
        refine .raised (.illegalReader rfl h fun hinv => ?_)
        unfold Reader.Inv at hinv
        simp at hf
        omega
    · dsimp only
      rw [State.setReader_self h]
      exact .answered rfl
    · exact .readerMoved (.inr (.inr ⟨force, rfl⟩)) h ⟨h1, h8, hp⟩ rfl

theorem execRdByte_effect (k : Nat) : Effect (.rdByte k) s (execRdByte k s) := by
  unfold execRdByte
  rcases s.withReader_cases k _ with ⟨h, hs⟩ | ⟨h, hs⟩ | ⟨r, h, hs⟩ <;> rw [hs]
  · exact .raised (.missing (array := .rd) rfl h)
  · exact .raised (.empty (array := .rd) rfl rfl h)
  · rcases r.readBits_cases 8 with ⟨kind, hb, hk⟩ | ⟨v, m, hb, h1, h8, hp, hm, -⟩ <;> rw [hb]
    · refine .raised (.own ?_)
      rcases hk with ⟨-, hn⟩ | ⟨rfl, -⟩
      · omega
      · simp [ownErrors]
    · exact .readerMoved (.inr (.inl rfl)) h (by omega) (.inl rfl)

theorem lt_of_getElem?_some {α : Type} {l : List α} {k : Nat} {a : α} (h : l[k]? = some a) : k < l.length :=
  (List.getElem?_eq_some_iff.mp h).1

theorem execWrNew_effect (k : Nat) : Effect (.wrNew k) s (execWrNew k s) := by
  unfold execWrNew
  rcases Nat.lt_or_ge k s.wr.length with h | h
  · rw [State.withSlot_present h]
    exact .writerSet rfl h rfl
  · rw [State.withSlot_missing h]
    exact .raised (.missing (array := .wr) rfl h)

theorem execWrLen_effect (k : Nat) : Effect (.wrLen k) s (execWrLen k s) := by
  unfold execWrLen
  rcases s.withWriter_cases k _ with ⟨h, hs⟩ | ⟨h, hs⟩ | ⟨w, h, hs⟩ <;> rw [hs]
  · exact .raised (.missing (array := .wr) rfl h)
  · exact .raised (.empty (array := .wr) rfl rfl h)
  · exact .answered (.inl rfl)

theorem execWrBits_effect (k : Nat) (bitString : Octets) :
    Effect (.wrBits k bitString) s (execWrBits k bitString s) := by
  unfold execWrBits
  rcases s.withWriter_cases k _ with ⟨h, hs⟩ | ⟨h, hs⟩ | ⟨w, h, hs⟩ <;> rw [hs]
  · exact .raised (.missing (array := .wr) rfl h)
  · exact .raised (.empty (array := .wr) rfl rfl h)
  · cases hb : isBitStr bitString with
    | true =>
      rw [w.writeBits_ok hb]
      exact .writerSet rfl (lt_of_getElem?_some h) rfl
    | false =>
      rw [w.writeBits_bad hb]
      exact .raised (.own (by simp [ownErrors]))

theorem execWrByte_effect (k : Nat) (byte : Int) : Effect (.wrByte k byte) s (execWrByte k byte s) := by
  unfold execWrByte
  rcases s.withWriter_cases k _ with ⟨h, hs⟩ | ⟨h, hs⟩ | ⟨w, h, hs⟩ <;> rw [hs]
  · exact .raised (.missing (array := .wr) rfl h)
  · exact .raised (.empty (array := .wr) rfl rfl h)
  · by_cases hb : 0 ≤ byte ∧ byte ≤ 255
    · rw [w.writeByte_ok hb]
      exact .writerSet rfl (lt_of_getElem?_some h) rfl
    · rw [w.writeByte_bad hb]
      exact .raised (.own (by simp [ownErrors]))

theorem execWrPad_effect (k : Nat) (force : Bool) : Effect (.wrPad k force) s (execWrPad k force s) := by
  unfold execWrPad
  rcases s.withWriter_cases k _ with ⟨h, hs⟩ | ⟨h, hs⟩ | ⟨w, h, hs⟩ <;> rw [hs]
  · exact .raised (.missing (array := .wr) rfl h)
  · exact .raised (.empty (array := .wr) rfl rfl h)
  · exact .writerSet rfl (lt_of_getElem?_some h) rfl

theorem execWrPop_effect (k : Nat) (n : Int) : Effect (.wrPop k n) s (execWrPop k n s) := by
  unfold execWrPop
  rcases s.withWriter_cases k _ with ⟨h, hs⟩ | ⟨h, hs⟩ | ⟨w, h, hs⟩ <;> rw [hs]
  · exact .raised (.missing (array := .wr) rfl h)
  · exact .raised (.empty (array := .wr) rfl rfl h)
  · rcases w.pop_cases n with hb | ⟨out, kept, hb, -, -⟩ <;> rw [hb]
    · exact .raised (.own (by simp [ownErrors]))
    · exact .writerSet rfl (lt_of_getElem?_some h) (.inl rfl)

theorem execWrFin_effect (k : Nat) (force : Bool) : Effect (.wrFin k force) s (execWrFin k force s) := by
  unfold execWrFin
  rcases s.withWriter_cases k _ with ⟨h, hs⟩ | ⟨h, hs⟩ | ⟨w, h, hs⟩ <;> rw [hs]
  · exact .raised (.missing (array := .wr) rfl h)
  · exact .raised (.empty (array := .wr) rfl rfl h)
  · exact .writerSet rfl (lt_of_getElem?_some h) (.inr (.inl rfl))

theorem execCdNew_effect (k : Nat) (base : Base) (strict : Bool) (alphabet : Octets) (pad : Option Octets) :
    Effect (.cdNew k base strict alphabet pad) s (execCdNew k base strict alphabet pad s) := by
  unfold execCdNew
  rcases Nat.lt_or_ge k s.cd.length with h | h
  · rw [State.withSlot_present h]
    split
    next c hc => exact .codecNew rfl rfl (Codec.construct_ok hc).1 h rfl
    next kind hk =>
      obtain rfl := Codec.construct_error hk
      exact .raised (.own (by simp [ownErrors]))
  · rw [State.withSlot_missing h]
    exact .raised (.missing (array := .cd) rfl h)

theorem execCdEncraw_effect (k : Nat) (bytes : Octets) :
    Effect (.cdEncraw k bytes) s (execCdEncraw k bytes s) := by
  unfold execCdEncraw
  rcases s.withCodec_cases k _ with ⟨h, hs⟩ | ⟨h, hs⟩ | ⟨c, h, hs⟩ <;> rw [hs]
  · exact .raised (.missing (array := .cd) rfl h)
  · exact .raised (.empty (array := .cd) rfl rfl h)
  · exact .answered (.inr (.inr rfl))

theorem execCdEnc_effect (k : Nat) (bytes : Octets) : Effect (.cdEnc k bytes) s (execCdEnc k bytes s) := by
  unfold execCdEnc
  rcases s.withCodec_cases k _ with ⟨h, hs⟩ | ⟨h, hs⟩ | ⟨c, h, hs⟩ <;> rw [hs]
  · exact .raised (.missing (array := .cd) rfl h)
  · exact .raised (.empty (array := .cd) rfl rfl h)
  · exact .answered (.inl rfl)

theorem execCdDecraw_effect (k : Nat) (e : Octets) : Effect (.cdDecraw k e) s (execCdDecraw k e s) := by
  unfold execCdDecraw
  rcases s.withCodec_cases k _ with ⟨h, hs⟩ | ⟨h, hs⟩ | ⟨c, h, hs⟩ <;> rw [hs]
  · exact .raised (.missing (array := .cd) rfl h)
  · exact .raised (.empty (array := .cd) rfl rfl h)
  · cases hd : c.decodeRaw e with
    | ok symbols => exact .answered (.inr (.inr rfl))
    | error kind =>
      obtain rfl := Codec.decodeRaw_error hd
      exact .raised (.own (by simp [ownErrors]))

theorem execCdDec_effect (k : Nat) (e : Octets) : Effect (.cdDec k e) s (execCdDec k e s) := by
  unfold execCdDec
  rcases s.withCodec_cases k _ with ⟨h, hs⟩ | ⟨h, hs⟩ | ⟨c, h, hs⟩ <;> rw [hs]
  · exact .raised (.missing (array := .cd) rfl h)
  · exact .raised (.empty (array := .cd) rfl rfl h)
  · exact State.replyDecoded_effect (.inl ⟨k, rfl, h⟩) rfl rfl

theorem execCdValid_effect (k : Nat) (e : Octets) : Effect (.cdValid k e) s (execCdValid k e s) := by
  unfold execCdValid
  rcases s.withCodec_cases k _ with ⟨h, hs⟩ | ⟨h, hs⟩ | ⟨c, h, hs⟩ <;> rw [hs]
  · exact .raised (.missing (array := .cd) rfl h)
  · exact .raised (.empty (array := .cd) rfl rfl h)
  · exact .answered (Result.ofBool_hasKind _)

/-- Everything a command can do in a state. -/
theorem exec_effect (i : Instr) : Effect i s (exec i s) := by
  cases i with
  | maskbits byte i0 i1 => exact execMaskbits_effect s byte i0 i1
  | padbits bitString n => exact execPadbits_effect s bitString n
  | byte2bits byte n prefixed => exact execByte2bits_effect s byte n prefixed
  | getbit bytes i => exact execGetbit_effect s bytes i
  | rdNew k truncate bytes => exact execRdNew_effect s k truncate bytes
  | rdEof k => exact execRdEof_effect s k
  | rdBits k n => exact execRdBits_effect s k n
  | rdAlign k force => exact execRdAlign_effect s k force
  | rdByte k => exact execRdByte_effect s k
  | wrNew k => exact execWrNew_effect s k
  | wrLen k => exact execWrLen_effect s k
  | wrBits k bitString => exact execWrBits_effect s k bitString
  | wrByte k byte => exact execWrByte_effect s k byte
  | wrPad k force => exact execWrPad_effect s k force
  | wrPop k n => exact execWrPop_effect s k n
  | wrFin k force => exact execWrFin_effect s k force
  | cdNew k base strict alphabet pad => exact execCdNew_effect s k base strict alphabet pad
  | cdEncraw k bytes => exact execCdEncraw_effect s k bytes
  | cdEnc k bytes => exact execCdEnc_effect s k bytes
  | cdDecraw k e => exact execCdDecraw_effect s k e
  | cdDec k e => exact execCdDec_effect s k e
  | cdValid k e => exact execCdValid_effect s k e
  | enc32 bytes => exact .answered (.inl rfl)
  | dec32 e => exact State.replyDecoded_effect (.inr (.inl ⟨rfl, rfl⟩)) rfl rfl
  | valid32 e => exact .answered (Result.ofBool_hasKind _)
  | enc64 bytes => exact .answered (.inl rfl)
  | dec64 e => exact State.replyDecoded_effect (.inr (.inr ⟨rfl, rfl⟩)) rfl rfl
  | valid64 e => exact .answered (Result.ofBool_hasKind _)

/-- The response of a command that goes on, and nothing taken off the host's list. -/
theorem exec_answers {i : Instr} {s t : State} (h : exec i s = .next t) :
    t.response ≠ none ∧ t.commands = s.commands := by
  have he := exec_effect s i
  rw [h] at he
  generalize ho : Host.Outcome.next (φ := Fault) (ρ := Refusal) t = o at he
  cases he <;> simp [State.raise, State.reply] at ho <;> subst ho <;> simp

end Sys2Proof.Machine
end

