-- ==== Sys2Proof/Laws/PerInstr.lean ====
section
/-! SUPPORT. The family `Shape`, one lemma a constructor: a well-formed command's packet selects a row that works on an
instance exactly where the command does, and carries as many operands and payloads as that row takes
(30_encoding.md R63, R67, R68). -/

namespace Sys2Proof.Laws.Shape

/-- The packet of the command has the shape of its row. -/
def Statement (i : Instr) : Prop :=
  i.WellFormed → ∃ op : Opcode, decodeOpcode (encode i).header = .ok op ∧ op.usesSlot = i.slotRef.isSome ∧
    (encode i).operands.length = op.operandCount ∧
    (encode i).payloads.length = op.payloadCount (Header.flagP (encode i).header)

/-- The shape of a packet whose header is encoded, from the row's own counts. -/
theorem of_header {i : Instr} (op : Opcode) (slot : Nat) (f p b : Bool)
    (hheader : (encode i).header = encodeHeader op slot f p b) (hs : i.WellFormed → slot < 16)
    (hf : op.usesF = false → f = false) (hp : op.usesP = false → p = false) (hb : op.usesB = false → b = false)
    (h32 : op ∈ [.enc32, .dec32, .valid32] → b = false) (h64 : op ∈ [.enc64, .dec64, .valid64] → b = true)
    (hslot : op.usesSlot = false → slot = 0) (huses : op.usesSlot = i.slotRef.isSome)
    (hops : (encode i).operands.length = op.operandCount)
    (hpls : (encode i).payloads.length = op.payloadCount p) : Statement i := by
  intro hi
  refine ⟨op, ?_, huses, hops, ?_⟩
  · rw [hheader]
    exact decodeOpcode_encodeHeader op (hs hi) hf hp hb h32 h64 hslot
  · rw [hheader, (Header.encode_fields op (hs hi) f p b).2.2.2.2.1]
    exact hpls

theorem maskbits (byte i0 i1 : Int) : Statement (.maskbits byte i0 i1) :=
  of_header .maskbits 0 false false false rfl (fun _ => by decide) (fun _ => rfl) (fun _ => rfl) (fun _ => rfl) (fun _ => rfl)
    (by simp) (fun _ => rfl) rfl rfl rfl

theorem padbits (bitString : Octets) (n : Int) : Statement (.padbits bitString n) :=
  of_header .padbits 0 false false false rfl (fun _ => by decide) (fun _ => rfl) (fun _ => rfl) (fun _ => rfl) (fun _ => rfl)
    (by simp) (fun _ => rfl) rfl rfl rfl

theorem byte2bits (byte n : Int) (prefixed : Bool) : Statement (.byte2bits byte n prefixed) :=
  of_header .byte2bits 0 prefixed false false rfl (fun _ => by decide) nofun (fun _ => rfl) (fun _ => rfl) (fun _ => rfl)
    (by simp) (fun _ => rfl) rfl rfl rfl

theorem getbit (bytes : Octets) (i : Int) : Statement (.getbit bytes i) :=
  of_header .getbit 0 false false false rfl (fun _ => by decide) (fun _ => rfl) (fun _ => rfl) (fun _ => rfl) (fun _ => rfl)
    (by simp) (fun _ => rfl) rfl rfl rfl

theorem rdNew (slot : Nat) (truncate : Bool) (bytes : Octets) : Statement (.rdNew slot truncate bytes) :=
  of_header .rdNew slot truncate false false rfl (fun h => of_decide_eq_true h) nofun (fun _ => rfl) (fun _ => rfl) (fun _ => rfl)
    (by simp) nofun rfl rfl rfl

theorem rdEof (slot : Nat) : Statement (.rdEof slot) :=
  of_header .rdEof slot false false false rfl (fun h => of_decide_eq_true h) (fun _ => rfl) (fun _ => rfl) (fun _ => rfl) (fun _ => rfl)
    (by simp) nofun rfl rfl rfl

theorem rdBits (slot : Nat) (n : Int) : Statement (.rdBits slot n) :=
  of_header .rdBits slot false false false rfl (fun h => of_decide_eq_true h) (fun _ => rfl) (fun _ => rfl) (fun _ => rfl) (fun _ => rfl)
    (by simp) nofun rfl rfl rfl

theorem rdAlign (slot : Nat) (force : Bool) : Statement (.rdAlign slot force) :=
  of_header .rdAlign slot force false false rfl (fun h => of_decide_eq_true h) nofun (fun _ => rfl) (fun _ => rfl) (fun _ => rfl)
    (by simp) nofun rfl rfl rfl

theorem rdByte (slot : Nat) : Statement (.rdByte slot) :=
  of_header .rdByte slot false false false rfl (fun h => of_decide_eq_true h) (fun _ => rfl) (fun _ => rfl) (fun _ => rfl) (fun _ => rfl)
    (by simp) nofun rfl rfl rfl

theorem wrNew (slot : Nat) : Statement (.wrNew slot) :=
  of_header .wrNew slot false false false rfl (fun h => of_decide_eq_true h) (fun _ => rfl) (fun _ => rfl) (fun _ => rfl) (fun _ => rfl)
    (by simp) nofun rfl rfl rfl

theorem wrLen (slot : Nat) : Statement (.wrLen slot) :=
  of_header .wrLen slot false false false rfl (fun h => of_decide_eq_true h) (fun _ => rfl) (fun _ => rfl) (fun _ => rfl) (fun _ => rfl)
    (by simp) nofun rfl rfl rfl

theorem wrBits (slot : Nat) (bitString : Octets) : Statement (.wrBits slot bitString) :=
  of_header .wrBits slot false false false rfl (fun h => of_decide_eq_true h) (fun _ => rfl) (fun _ => rfl) (fun _ => rfl) (fun _ => rfl)
    (by simp) nofun rfl rfl rfl

theorem wrByte (slot : Nat) (byte : Int) : Statement (.wrByte slot byte) :=
  of_header .wrByte slot false false false rfl (fun h => of_decide_eq_true h) (fun _ => rfl) (fun _ => rfl) (fun _ => rfl) (fun _ => rfl)
    (by simp) nofun rfl rfl rfl

theorem wrPad (slot : Nat) (force : Bool) : Statement (.wrPad slot force) :=
  of_header .wrPad slot force false false rfl (fun h => of_decide_eq_true h) nofun (fun _ => rfl) (fun _ => rfl) (fun _ => rfl)
    (by simp) nofun rfl rfl rfl

theorem wrPop (slot : Nat) (n : Int) : Statement (.wrPop slot n) :=
  of_header .wrPop slot false false false rfl (fun h => of_decide_eq_true h) (fun _ => rfl) (fun _ => rfl) (fun _ => rfl) (fun _ => rfl)
    (by simp) nofun rfl rfl rfl

theorem wrFin (slot : Nat) (force : Bool) : Statement (.wrFin slot force) :=
  of_header .wrFin slot force false false rfl (fun h => of_decide_eq_true h) nofun (fun _ => rfl) (fun _ => rfl) (fun _ => rfl)
    (by simp) nofun rfl rfl rfl

theorem cdNew (slot : Nat) (base : Base) (strict : Bool) (alphabet : Octets) (pad : Option Octets) :
    Statement (.cdNew slot base strict alphabet pad) := by
  refine of_header .cdNew slot strict pad.isSome (base == .base64) rfl (fun h => of_decide_eq_true h) nofun nofun nofun
    (by simp) (by simp) nofun rfl rfl ?_
  cases pad <;> rfl

theorem cdEncraw (slot : Nat) (bytes : Octets) : Statement (.cdEncraw slot bytes) :=
  of_header .cdEncraw slot false false false rfl (fun h => of_decide_eq_true h) (fun _ => rfl) (fun _ => rfl) (fun _ => rfl) (fun _ => rfl)
    (by simp) nofun rfl rfl rfl

theorem cdEnc (slot : Nat) (bytes : Octets) : Statement (.cdEnc slot bytes) :=
  of_header .cdEnc slot false false false rfl (fun h => of_decide_eq_true h) (fun _ => rfl) (fun _ => rfl) (fun _ => rfl) (fun _ => rfl)
    (by simp) nofun rfl rfl rfl

theorem cdDecraw (slot : Nat) (encoded : Octets) : Statement (.cdDecraw slot encoded) :=
  of_header .cdDecraw slot false false false rfl (fun h => of_decide_eq_true h) (fun _ => rfl) (fun _ => rfl) (fun _ => rfl) (fun _ => rfl)
    (by simp) nofun rfl rfl rfl

theorem cdDec (slot : Nat) (encoded : Octets) : Statement (.cdDec slot encoded) :=
  of_header .cdDec slot false false false rfl (fun h => of_decide_eq_true h) (fun _ => rfl) (fun _ => rfl) (fun _ => rfl) (fun _ => rfl)
    (by simp) nofun rfl rfl rfl

theorem cdValid (slot : Nat) (encoded : Octets) : Statement (.cdValid slot encoded) :=
  of_header .cdValid slot false false false rfl (fun h => of_decide_eq_true h) (fun _ => rfl) (fun _ => rfl) (fun _ => rfl) (fun _ => rfl)
    (by simp) nofun rfl rfl rfl

theorem enc32 (bytes : Octets) : Statement (.enc32 bytes) :=
  of_header .enc32 0 false false false rfl (fun _ => by decide) (fun _ => rfl) (fun _ => rfl) nofun (fun _ => rfl)
    (by simp) (fun _ => rfl) rfl rfl rfl

theorem dec32 (encoded : Octets) : Statement (.dec32 encoded) :=
  of_header .dec32 0 false false false rfl (fun _ => by decide) (fun _ => rfl) (fun _ => rfl) nofun (fun _ => rfl)
    (by simp) (fun _ => rfl) rfl rfl rfl

theorem valid32 (encoded : Octets) : Statement (.valid32 encoded) :=
  of_header .valid32 0 false false false rfl (fun _ => by decide) (fun _ => rfl) (fun _ => rfl) nofun (fun _ => rfl)
    (by simp) (fun _ => rfl) rfl rfl rfl

theorem enc64 (bytes : Octets) : Statement (.enc64 bytes) :=
  of_header .enc64 0 false false true rfl (fun _ => by decide) (fun _ => rfl) (fun _ => rfl) nofun (by simp)
    (fun _ => rfl) (fun _ => rfl) rfl rfl rfl

theorem dec64 (encoded : Octets) : Statement (.dec64 encoded) :=
  of_header .dec64 0 false false true rfl (fun _ => by decide) (fun _ => rfl) (fun _ => rfl) nofun (by simp)
    (fun _ => rfl) (fun _ => rfl) rfl rfl rfl

theorem valid64 (encoded : Octets) : Statement (.valid64 encoded) :=
  of_header .valid64 0 false false true rfl (fun _ => by decide) (fun _ => rfl) (fun _ => rfl) nofun (by simp)
    (fun _ => rfl) (fun _ => rfl) rfl rfl rfl

end Sys2Proof.Laws.Shape
end

