-- ==== Sys2Proof/Tests/Slice0.lean ====
section
/-! SUPPORT. The model's own tests: ill-formed terms, words written out from the spec's encodings, one step of every
command with the answer of 95_test_vectors.md (its vector named in the comment), and a witness for the hypotheses of
every obligation. -/

namespace Sys2Proof.Tests
open Sys2Proof.Machine

/-! ## Helpers -/

/-- The response a step ends with. -/
def answer : StepOutcome → Option Response
  | .next t => t.response
  | .fault _ => none
  | .refused _ => none

/-- The state a step ends with. -/
def after : StepOutcome → Option State
  | .next t => some t
  | .fault _ => none
  | .refused _ => none

def refusal : StepOutcome → Option Refusal
  | .next _ => none
  | .fault _ => none
  | .refused why => some why

/-- The codes of a text. -/
def chars (text : String) : Octets := text.toList.map fun c => BitVec.ofNat 8 c.toNat

def value (n : Nat) : Option Response := some (.ok (some (.value n)))
def octets (b : Octets) : Option Response := some (.ok (some (.octets b)))
def text (t : String) : Option Response := octets (chars t)
def ok : Option Response := some (.ok none)
def failed (kind : ErrorKind) : Option Response := some (.error kind)

/-- The bits of a text of `0` and `1`. -/
def bits (t : String) : Bits := t.toList.map (· == '1')

def b32 : Octets := chars "abcdefghijklmnopqrstuvwxyz234567"
def b64 : Octets := chars "ABCDEFGHIJKLMNOPQRSTUVWXYZabcdefghijklmnopqrstuvwxyz0123456789+/"

/-- A machine with four slots an array: readers inside, Empty, at the end and aligned; writers unaligned, Empty and
aligned; codecs b32-pad, Empty, b32-nopad-strict and b64-pad. -/
def demo : State where
  rd := [some ⟨[0xA5, 0x3C], 14, false⟩, none, some ⟨[0xA5], 8, true⟩, some ⟨[0xA5, 0x3C], 8, true⟩]
  wr := [some ⟨bits "101"⟩, none, some ⟨bits "00000111"⟩, some ⟨[]⟩]
  cd := [some ⟨.base32, b32, some 0x3D, false⟩, none, some ⟨.base32, b32, none, true⟩, some ⟨.base64, b64, some 0x3D, false⟩]
  commands := []
  response := none

theorem test_default_alphabets : defaultBase32.alphabet = b32 ∧ defaultBase64.alphabet = b64 := by decide

theorem b32_inv (pad : Option Byte) (strict : Bool) (h : pad = none ∨ pad = some 0x3D) :
    (⟨.base32, b32, pad, strict⟩ : Codec).Inv where
  size := by show b32.length = 32; decide
  distinct := by show b32.Pairwise fun a b => fold a ≠ fold b; decide
  pad := by
    rcases h with rfl | rfl
    · simp
    · intro pc hpc
      obtain rfl : 0x3D = pc := by simpa using hpc
      show 0x3D ∉ b32
      decide

theorem b64_inv : (⟨.base64, b64, some 0x3D, false⟩ : Codec).Inv where
  size := by show b64.length = 64; decide
  distinct := by show b64.Pairwise fun a b => a ≠ b; decide +kernel
  pad := by
    intro pc hpc
    obtain rfl : 0x3D = pc := by simpa using hpc
    show 0x3D ∉ b64
    decide

theorem demo_inv : demo.Inv where
  readerSlots := by decide
  writerSlots := by decide
  codecSlots := by decide
  readers := by
    intro r hr
    simp only [demo, List.mem_cons, List.not_mem_nil, or_false, Option.some.injEq, reduceCtorEq, false_or] at hr
    rcases hr with rfl | rfl | rfl <;> simp [Reader.Inv]
  codecs := by
    intro c hc
    simp only [demo, List.mem_cons, List.not_mem_nil, or_false, Option.some.injEq, reduceCtorEq, false_or] at hc
    rcases hc with rfl | rfl | rfl
    · exact b32_inv _ _ (.inr rfl)
    · exact b32_inv _ _ (.inl rfl)
    · exact b64_inv

/-! ## WellFormed: the one check refuses slot 16 in each array, and takes slot 15 -/

theorem test_wellFormed_slot :
    (Instr.rdEof 16).wellFormed = false ∧ (Instr.wrLen 16).wellFormed = false ∧ (Instr.cdEnc 16 []).wellFormed = false ∧
    (Instr.rdEof 15).wellFormed = true ∧ (Instr.wrLen 15).wellFormed = true ∧ (Instr.cdEnc 15 []).wellFormed = true := by
  decide

/-! ## Decoding: words written out from 30_encoding.md R61 to R65; every constructor once -/

theorem test_decode_bitOps :
    decode ⟨0b00000000000000000000000000000000, [181, 2, 5], []⟩ = .ok (.maskbits 181 2 5) ∧
    decode ⟨0b00000001000000000000000000000000, [8], [chars "101"]⟩ = .ok (.padbits (chars "101") 8) ∧
    decode ⟨0b00000010000000010000000000000000, [7, 8], []⟩ = .ok (.byte2bits 7 8 true) ∧
    decode ⟨0b00000010000000000000000000000000, [7, -8], []⟩ = .ok (.byte2bits 7 (-8) false) ∧
    decode ⟨0b00000011000000000000000000000000, [15], [[0x01, 0x80]]⟩ = .ok (.getbit [0x01, 0x80] 15) := by decide

theorem test_decode_bitReader :
    decode ⟨0b00010000000100000000000000000000, [], [[0xFF, 0xFF]]⟩ = .ok (.rdNew 1 false [0xFF, 0xFF]) ∧
    decode ⟨0b00010000000000010000000000000000, [], [[]]⟩ = .ok (.rdNew 0 true []) ∧
    decode ⟨0b00010001111100000000000000000000, [], []⟩ = .ok (.rdEof 15) ∧
    decode ⟨0b00010010100000000000000000000000, [3], []⟩ = .ok (.rdBits 8 3) ∧
    decode ⟨0b00010011000000010000000000000000, [], []⟩ = .ok (.rdAlign 0 true) ∧
    decode ⟨0b00010100001000000000000000000000, [], []⟩ = .ok (.rdByte 2) := by decide

theorem test_decode_bitWriter :
    decode ⟨0b00100000010000000000000000000000, [], []⟩ = .ok (.wrNew 4) ∧
    decode ⟨0b00100001000000000000000000000000, [], []⟩ = .ok (.wrLen 0) ∧
    decode ⟨0b00100010000100000000000000000000, [], [chars "101"]⟩ = .ok (.wrBits 1 (chars "101")) ∧
    decode ⟨0b00100011000000000000000000000000, [195], []⟩ = .ok (.wrByte 0 195) ∧
    decode ⟨0b00100100000000010000000000000000, [], []⟩ = .ok (.wrPad 0 true) ∧
    decode ⟨0b00100101000000000000000000000000, [3], []⟩ = .ok (.wrPop 0 3) ∧
    decode ⟨0b00100110001100000000000000000000, [], []⟩ = .ok (.wrFin 3 false) := by decide

theorem test_decode_codec :
    decode ⟨0b00110000000000000000000000000000, [], [chars "ab"]⟩ = .ok (.cdNew 0 .base32 false (chars "ab") none) ∧
    decode ⟨0b00110000000101110000000000000000, [], [chars "ab", chars "="]⟩
      = .ok (.cdNew 1 .base64 true (chars "ab") (some (chars "="))) ∧
    decode ⟨0b00110001000000000000000000000000, [], [[0x66]]⟩ = .ok (.cdEncraw 0 [0x66]) ∧
    decode ⟨0b00110010000000000000000000000000, [], [[0x66]]⟩ = .ok (.cdEnc 0 [0x66]) ∧
    decode ⟨0b00110011000000000000000000000000, [], [chars "my"]⟩ = .ok (.cdDecraw 0 (chars "my")) ∧
    decode ⟨0b00110100001000000000000000000000, [], [chars "my"]⟩ = .ok (.cdDec 2 (chars "my")) ∧
    decode ⟨0b00110101000000000000000000000000, [], [chars "Zg"]⟩ = .ok (.cdValid 0 (chars "Zg")) := by decide

theorem test_decode_defaultCodecs :
    decode ⟨0b00111000000000000000000000000000, [], [[0x66]]⟩ = .ok (.enc32 [0x66]) ∧
    decode ⟨0b00111001000000000000000000000000, [], [chars "my"]⟩ = .ok (.dec32 (chars "my")) ∧
    decode ⟨0b00111010000000000000000000000000, [], [chars "my"]⟩ = .ok (.valid32 (chars "my")) ∧
    decode ⟨0b00111000000001000000000000000000, [], [[0x66]]⟩ = .ok (.enc64 [0x66]) ∧
    decode ⟨0b00111001000001000000000000000000, [], [chars "FP"]⟩ = .ok (.dec64 (chars "FP")) ∧
    decode ⟨0b00111010000001000000000000000000, [], [chars "FP"]⟩ = .ok (.valid64 (chars "FP")) := by decide

/-- Q1 to Q9, Q12 of 95_test_vectors.md. -/
theorem test_decode_illegal :
    decode ⟨0x12000001, [3], []⟩ = .error .reservedBit ∧ decode ⟨0x11010000, [], []⟩ = .error .unusedFlag ∧
    decode ⟨0x40000000, [], []⟩ = .error .reservedUnit ∧ decode ⟨0x38100000, [], [[0x66]]⟩ = .error .slotNotZero ∧
    decode ⟨0x15000000, [], []⟩ = .error .reservedFunction ∧ decode ⟨0x36000000, [], []⟩ = .error .reservedFunction ∧
    decode ⟨0x3B000000, [], []⟩ = .error .reservedFunction ∧ decode ⟨0x12080000, [3], []⟩ = .error .reservedBit ∧
    decode ⟨0x12000000, [], []⟩ = .error .operandCount ∧ decode ⟨0x12000000, [1, 2], []⟩ = .error .operandCount ∧
    decode ⟨0x30000000, [], [[], []]⟩ = .error .payloadCount ∧ decode ⟨0x30020000, [], [[]]⟩ = .error .payloadCount ∧
    decode ⟨0x34040000, [], [chars "Zg"]⟩ = .error .unusedFlag := by decide

/-- A table word as the first command after reset: `RD.EOF r0` and `WR.NEW w3`. -/
theorem test_withFetchWord :
    answer (step (State.reset.withFetchWord 32 0x11000000)) = failed .noInstance ∧
    answer (step (State.reset.withFetchWord 32 0x20300000)) = ok ∧
    decodeTableWord 32 0x30070000 = some (.cdNew 0 .base64 true [] (some [])) ∧
    decodeTableWord 32 0x3B000000 = none := by decide

/-! ## One step of every command -/

/-- B4, B6, B9. -/
theorem test_maskbits : answer (exec (.maskbits 0xB5 2 5) demo) = value 6 ∧
    answer (exec (.maskbits 0xB5 3 3) demo) = failed .invalidArgument ∧
    answer (exec (.maskbits (-1) 0 8) demo) = failed .invalidArgument := by decide

/-- B12, B16. -/
theorem test_padbits : answer (exec (.padbits (chars "111111111") 8) demo) = text "0000000111111111" ∧
    answer (exec (.padbits [] 4) demo) = text "0000" ∧
    answer (exec (.padbits (chars "101") 0) demo) = failed .invalidArgument := by decide

/-- B18, B21. -/
theorem test_byte2bits : answer (exec (.byte2bits 7 8 true) demo) = text "0b00000111" ∧
    answer (exec (.byte2bits 7 2 false) demo) = failed .invalidArgument := by decide

/-- B30, B31, B32. -/
theorem test_getbit : answer (exec (.getbit [0x01, 0x80] 8) demo) = value 0 ∧
    answer (exec (.getbit [0x01, 0x80] 15) demo) = value 1 ∧
    answer (exec (.getbit [0x01, 0x80] 16) demo) = failed .invalidArgument := by decide

/-- A1. -/
theorem test_rdNew : (after (exec (.rdNew 0 true [0xA5]) demo)).map (·.rd[0]?) = some (some (some ⟨[0xA5], 0, true⟩)) := by
  decide

/-- A6, A8. -/
theorem test_rdEof : answer (exec (.rdEof 0) demo) = value 0 ∧ answer (exec (.rdEof 2) demo) = value 1 := by decide

/-- S6: two bits remain of the second byte, here `00`; and the same reader over `[255, 255]`. -/
theorem test_rdBits_short : answer (exec (.rdBits 0 8) { demo with rd := [some ⟨[255, 255], 14, false⟩] }) = value 192 ∧
    answer (exec (.rdBits 0 8) { demo with rd := [some ⟨[255, 255], 14, true⟩] }) = value 3 ∧
    (after (exec (.rdBits 0 8) demo)).map (·.rd[0]?) = some (some (some ⟨[0xA5, 0x3C], 16, false⟩)) := by decide

/-- A10, A9. -/
theorem test_rdBits_errors : answer (exec (.rdBits 2 9) demo) = failed .invalidArgument ∧
    answer (exec (.rdBits 2 1) demo) = failed .endOfBuffer := by decide

/-- G2, G6, G7. -/
theorem test_rdAlign : (after (exec (.rdAlign 0 false) demo)).map (·.rd[0]?) = some (some (some ⟨[0xA5, 0x3C], 16, false⟩)) ∧
    answer (exec (.rdAlign 2 true) demo) = failed .endOfBuffer ∧ answer (exec (.rdAlign 2 false) demo) = ok := by decide

/-- The `RD.BYTE` vectors of section 2.2: 60 of the second byte, 83 across the boundary. -/
theorem test_rdByte : answer (exec (.rdByte 3) demo) = value 60 ∧
    answer (exec (.rdByte 0) { demo with rd := [some ⟨[0xA5, 0x3C], 4, true⟩] }) = value 83 := by decide

/-- W1. -/
theorem test_wrNew : (after (exec (.wrNew 0) demo)).map (·.wr[0]?) = some (some (some ⟨[]⟩)) := by decide

/-- W2, W22. -/
theorem test_wrLen : answer (exec (.wrLen 0) demo) = value 3 ∧ answer (exec (.wrLen 1) demo) = failed .noInstance := by
  decide

/-- W2, W17. -/
theorem test_wrBits : (after (exec (.wrBits 3 (chars "101")) demo)).map (·.wr[3]?) = some (some (some ⟨bits "101"⟩)) ∧
    (after (exec (.wrBits 0 (chars "10x1")) demo)).map (·.wr[0]?) = some (some (some ⟨bits "101"⟩)) ∧
    answer (exec (.wrBits 0 (chars "10x1")) demo) = failed .invalidArgument := by decide

/-- Step 3 of program P2, and W20. -/
theorem test_wrByte : (after (exec (.wrByte 0 0xC3) demo)).map (·.wr[0]?) = some (some (some ⟨bits "10111000011"⟩)) ∧
    answer (exec (.wrByte 0 256) demo) = failed .invalidArgument := by decide

/-- W3, and S8's padding. -/
theorem test_wrPad : (after (exec (.wrPad 0 false) demo)).map (·.wr[0]?) = some (some (some ⟨bits "10100001"⟩)) ∧
    (after (exec (.wrPad 2 true) demo)).map (·.wr[2]?) = some (some (some ⟨bits "0000011100000001"⟩)) := by decide

/-- S7, and step 5 of program P2. -/
theorem test_wrPop : answer (exec (.wrPop 2 3) demo) = text "111" ∧
    (after (exec (.wrPop 2 3) demo)).map (·.wr[2]?) = some (some (some ⟨bits "00000"⟩)) ∧
    answer (exec (.wrPop 0 4) { demo with wr := [some ⟨bits "10111000011"⟩] }) = text "0011" := by decide

/-- S7, S8. -/
theorem test_wrFin : answer (exec (.wrFin 0 false) { demo with wr := [some ⟨bits "00000"⟩] }) = octets [1] ∧
    answer (exec (.wrFin 2 true) demo) = octets [7, 1] := by decide

/-- K2, K11 (a pad that is an alphabet character in the other case). -/
theorem test_cdNew_ok : (after (exec (.cdNew 1 .base32 false b32 none) demo)).map (·.cd[1]?)
      = some (some (some ⟨.base32, b32, none, false⟩)) ∧
    answer (exec (.cdNew 1 .base32 false b32 (some (chars "A"))) demo) = ok := by decide

/-- K5, K6, K9, K10. -/
theorem test_cdNew_errors : answer (exec (.cdNew 1 .base32 false b32.tail none) demo) = failed .invalidArgument ∧
    answer (exec (.cdNew 1 .base32 false (chars "abcdefghijklmnopqrstuvwxyzA34567") none) demo) = failed .invalidArgument ∧
    answer (exec (.cdNew 1 .base32 false b32 (some (chars "=="))) demo) = failed .invalidArgument ∧
    answer (exec (.cdNew 1 .base32 false b32 (some (chars "a"))) demo) = failed .invalidArgument := by decide

/-- E2. -/
theorem test_cdEncraw : answer (exec (.cdEncraw 0 [0x66, 0x6F]) demo) = octets [12, 25, 23, 16] ∧
    answer (exec (.cdEncraw 3 [0x66, 0x6F]) demo) = octets [25, 38, 60] := by decide

/-- S9', S9. -/
theorem test_cdEnc : answer (exec (.cdEnc 0 [0x66]) demo) = text "my======" ∧
    answer (exec (.cdEnc 2 [0x66]) demo) = text "my" := by decide

/-- F4, F5, F15. -/
theorem test_cdDecraw : answer (exec (.cdDecraw 0 (chars "My======")) demo) = octets [12, 24] ∧
    answer (exec (.cdDecraw 0 (chars "my=====")) demo) = failed .invalidFormat ∧
    answer (exec (.cdDecraw 0 (chars "aaa")) demo) = octets [0, 0, 0] := by decide

/-- S11, T5. -/
theorem test_cdDec : answer (exec (.cdDec 0 (chars "fooa====")) demo) = octets [0x2B, 0x9C] ∧
    answer (exec (.cdDec 2 (chars "my")) demo) = failed .invalidFormat := by decide

/-- F15: the one refusal (43_basen_codec.md R169). -/
theorem test_cdDec_refused : refusal (exec (.cdDec 0 (chars "aaa")) demo) = some .decodeOvercut ∧
    refusal (exec (.dec32 (chars "aaaaaa")) demo) = some .decodeOvercut := by decide

/-- F2, F9, F15. -/
theorem test_cdValid : answer (exec (.cdValid 0 (chars "my======")) demo) = value 1 ∧
    answer (exec (.cdValid 0 (chars "mz======")) demo) = value 0 ∧
    answer (exec (.cdValid 0 (chars "aaa")) demo) = value 1 := by decide

/-- E4. -/
theorem test_enc32 : answer (exec (.enc32 (chars "foob")) demo) = text "mzxw6yq=" := by decide

/-- F16, F9. -/
theorem test_dec32 : answer (exec (.dec32 (chars "mzxw6===")) demo) = octets (chars "foo") ∧
    answer (exec (.dec32 (chars "mz======")) demo) = failed .invalidFormat := by decide

/-- F8'. -/
theorem test_valid32 : answer (exec (.valid32 (chars "m=yaaaa=")) demo) = value 0 ∧
    answer (exec (.valid32 []) demo) = value 1 := by decide

/-- S13. -/
theorem test_enc64 : answer (exec (.enc64 [0x14, 0xFB, 0x9C, 0x03, 0xD9, 0x7E]) demo) = text "FPucA9l+" := by decide

/-- S14, S15. -/
theorem test_dec64 : answer (exec (.dec64 (chars "FPucAw==")) demo) = octets [0x14, 0xFB, 0x9C, 0x03] ∧
    answer (exec (.dec64 (chars "FPucA===")) demo) = failed .invalidFormat := by decide

/-- X4, X11. -/
theorem test_valid64 : answer (exec (.valid64 (chars "Zh==")) demo) = value 0 ∧
    answer (exec (.valid64 (chars "A")) demo) = value 1 := by decide

/-- Lines of 30_encoding.md R75, as it gives them. -/
theorem test_assemble : Assembler.assemble "RD.NEW r0, [0xFF, 0xFF], truncate=0" = some (.rdNew 0 false [255, 255]) ∧
    Assembler.assemble "CD.NEW c0, \"abcdefghijklmnopqrstuvwxyz234567\", base=32, pad=\"=\", strict=0"
      = some (.cdNew 0 .base32 false b32 (some [0x3D])) ∧
    Assembler.assemble "RD.BITS r0, 8 -> 192" = some (.rdBits 0 8) ∧
    Assembler.assemble "WR.FIN w0, force=0 -> [1]" = some (.wrFin 0 false) := by decide

/-! ## Witnesses: states and operands that meet every hypothesis of an obligation, one for each clause -/

theorem witness_DecodingAnEncodedCommandGivesItBack :
    (Instr.cdNew 15 .base64 true [0x61] (some [0x3D])).WellFormed ∧ (Instr.maskbits (-1) 300 0).WellFormed := by decide

theorem witness_DecodedPacketIsTheEncodingOfItsCommand :
    decode ⟨0x30070000, [], [[0x61], [0x3D]]⟩ = .ok (.cdNew 0 .base64 true [0x61] (some [0x3D])) := by decide

/-- A header the fields accept, and one a row selects. -/
theorem witness_OpcodeTableAgreesWithTheHeaderFields :
    decodeOpcode 0x30F70000 = .ok .cdNew ∧ (⟨.cdNew, 0x30000000, 0xFF08FFFF⟩ : Row) ∈ opcodeTable ∧
    (⟨.cdNew, 0x30000000, 0xFF08FFFF⟩ : Row).selects 0x30F70000 = true := by decide

/-- The three kinds of illegal packet: no row, the last slot but one too far, a count; and a legal packet. -/
theorem witness_IllegalPacketIsAnsweredAndChangesNoSlot :
    (∀ row ∈ opcodeTable, row.selects 0x15000000 = false) ∧
    (PacketIllegal demo ⟨0x11400000, [], []⟩ ∧ PacketIllegal demo ⟨0x12000000, [], []⟩) ∧
    (¬ PacketIllegal demo ⟨0x11300000, [], []⟩ ∧
      ∃ t, step { demo with commands := [⟨0x11300000, [], []⟩] } = .next t) := by
  refine ⟨by decide, ⟨.inr ?_, .inr ?_⟩, by unfold PacketIllegal; decide, _, rfl⟩
  · exact ⟨⟨.rdEof, 0x11000000, 0xFF0FFFFF⟩, by decide, by decide, .inr (.inr (by decide))⟩
  · exact ⟨⟨.rdBits, 0x12000000, 0xFF0FFFFF⟩, by decide, by decide, .inl (by decide)⟩

theorem witness_StepExecutesTheDecodedCommand :
    ({ demo with commands := [⟨0x11300000, [], []⟩, ⟨0, [], []⟩] } : State).commands
      = ⟨0x11300000, [], []⟩ :: [⟨0, [], []⟩] ∧ decode ⟨0x11300000, [], []⟩ = .ok (.rdEof 3) := by decide

theorem witness_NoCommandNoChange : demo.commands = [] := rfl

theorem witness_ResetMeetsTheInvariant : ∃ nr nw nc : Nat, 1 ≤ nr ∧ nr ≤ 16 ∧ 1 ≤ nw ∧ nw ≤ 16 ∧ 1 ≤ nc ∧ nc ≤ 16 :=
  ⟨1, 16, 7, by decide⟩

theorem witness_EveryStepKeepsTheInvariant :
    ({ demo with commands := [⟨0x14300000, [], []⟩] } : State).Inv ∧
    ∃ t, step { demo with commands := [⟨0x14300000, [], []⟩] } = .next t :=
  ⟨⟨demo_inv.1, demo_inv.2, demo_inv.3, demo_inv.4, demo_inv.5⟩, _, rfl⟩

/-- For every statement about a failing command. -/
theorem witness_FailingCommand :
    ∃ t, exec (.rdBits 2 1) demo = .next t ∧ t.response = some (.error .endOfBuffer) := ⟨_, rfl, rfl⟩

theorem witness_CommandRaisesOnlyItsOwnErrors :
    demo.Inv ∧ ∃ t, exec (.rdBits 2 9) demo = .next t ∧ t.response = some (.error .invalidArgument) :=
  ⟨demo_inv, _, rfl, rfl⟩

/-- An accepted string with an overcut. -/
theorem accepted_overcut : AcceptedAs ⟨.base32, b32, some 0x3D, false⟩ (chars "aaa") [0, 0, 0] :=
  (Codec.decodeRaw_ok_iff (b32_inv _ _ (.inr rfl))).mp (by decide)

theorem witness_RefusalIsExactlyTheOvercut :
    (⟨.base32, b32, some 0x3D, false⟩ : Codec).Inv ∧
    DecodesWith demo (.cdDec 0 (chars "aaa")) ⟨.base32, b32, some 0x3D, false⟩ (chars "aaa") ∧
    AcceptedAs ⟨.base32, b32, some 0x3D, false⟩ (chars "aaa") [0, 0, 0] ∧ Overcut .base32 [0, 0, 0] :=
  ⟨b32_inv _ _ (.inr rfl), .inl ⟨0, rfl, rfl⟩, accepted_overcut, by unfold Overcut; decide⟩

/-- The other command of the statement: the default codec. -/
theorem witness_RefusalIsExactlyTheOvercut_default :
    DecodesWith demo (.dec32 (chars "aaaaaa")) defaultBase32 (chars "aaaaaa") := .inr (.inl ⟨rfl, rfl⟩)

theorem witness_EmptySlotIsAnsweredNoInstance :
    ((Instr.cdValid 1 []).slotRef = some (.cd, 1) ∧ (Instr.cdValid 1 []).isConstructor = false ∧ demo.SlotEmpty .cd 1) ∧
    ∃ t, exec (.cdValid 1 []) demo = .next t ∧ t.response = some (.error .noInstance) :=
  ⟨⟨rfl, rfl, rfl⟩, _, rfl, rfl⟩

/-- The first slot the machine does not have. -/
theorem witness_MissingSlotIsAnsweredIllegalCommand :
    ((Instr.rdNew 4 true []).slotRef = some (.rd, 4) ∧ demo.SlotMissing .rd 4) ∧
    ∃ t, exec (.rdNew 4 true []) demo = .next t ∧ t.response = some (.error .illegalCommand) :=
  ⟨⟨rfl, Nat.le_refl 4⟩, _, rfl, rfl⟩

theorem witness_CommandWritesOnlyItsOwnSlot :
    (∃ t, exec (.rdBits 0 2) demo = .next t) ∧ (Instr.rdBits 0 2).slotRef ≠ some (.rd, 3) := ⟨⟨_, rfl⟩, by decide⟩

/-- Two states that agree on the reader in slot 0 and on nothing else. -/
theorem witness_CommandReadsOnlyItsOwnSlot :
    (∀ array k, (Instr.rdBits 0 2).slotRef = some (array, k) →
      demo.slotAt array k = ({ demo with rd := demo.rd.take 1, wr := [], cd := [none] } : State).slotAt array k) ∧
    (∃ t, exec (.rdBits 0 2) demo = .next t) ∧ (∃ why, exec (.cdDec 0 (chars "aaa")) demo = .refused why) := by
  refine ⟨?_, ⟨_, rfl⟩, _, rfl⟩
  intro array k h
  cases h
  rfl

theorem witness_HostSideIsNeverRead :
    (∃ t, exec (.rdEof 0) demo = .next t) ∧ ∃ why, exec (.cdDec 0 (chars "aaa")) demo = .refused why :=
  ⟨⟨_, rfl⟩, _, rfl⟩

theorem witness_ResultIsOfTheCommandsKind :
    (∃ t, exec (.rdEof 0) demo = .next t ∧ t.response = some (.ok (some (.value 0)))) ∧
    (demo.cd[0]? = some (some ⟨.base32, b32, some 0x3D, false⟩) ∧
      ∃ t, exec (.cdDecraw 0 (chars "74======")) demo = .next t ∧ t.response = some (.ok (some (.octets [31, 28])))) :=
  ⟨⟨_, rfl, rfl⟩, rfl, _, rfl, by decide⟩

theorem witness_ReaderFieldsChangeOnlyAsAllowed :
    (∃ t, exec (.rdAlign 0 false) demo = .next t) ∧ demo.rd[0]? = some (some ⟨[0xA5, 0x3C], 14, false⟩) ∧
    (∀ truncate bytes, Instr.rdAlign 0 false ≠ .rdNew 0 truncate bytes) ∧
    (∃ t, exec (.rdNew 3 true []) demo = .next t) ∧ 3 < demo.rd.length :=
  ⟨⟨_, rfl⟩, rfl, nofun, ⟨_, rfl⟩, by decide⟩

/-- The two clauses of each BitOps statement at the edges of their ranges. -/
theorem witness_MaskbitsReturnsTheSliceOfTheByte :
    ((0 : Int) ≤ 255 ∧ (255 : Int) ≤ 255 ∧ (0 : Int) ≤ 0 ∧ (0 : Int) < 8 ∧ (8 : Int) ≤ 8) ∧
    ¬ ((0 : Int) ≤ 255 ∧ (255 : Int) ≤ 255 ∧ (0 : Int) ≤ 3 ∧ (3 : Int) < 3 ∧ (3 : Int) ≤ 8) := by decide

theorem witness_PadbitsPadsToTheLeastPositiveMultiple : (0 : Int) < 1 ∧ (0 : Int) ≤ 0 := by decide

theorem witness_Byte2bitsWritesTheNumeral :
    ((0 : Int) ≤ 255 ∧ (255 : Int) ≤ 255 ∧ (1 : Int) ≤ 8 ∧ (255 : Int) < 2 ^ (8 : Int).toNat) ∧
    (2 : Int) ^ (7 : Int).toNat ≤ 255 ∧ (0 : Int) < 1 := by decide

theorem witness_GetbitNumbersFromTheLeastSignificantBit :
    15 < 8 * ([0x01, 0x80] : Octets).length ∧ ([0x01, 0x80] : Octets)[15 / 8]? = some 0x80 ∧
    (8 * ([0x01, 0x80] : Octets).length : Int) ≤ 16 ∧ (-1 : Int) < 0 := by decide

/-- A read that ends with the byte. -/
theorem witness_ReadInsideAByteIsMaskbits :
    demo.rd[0]? = some (some ⟨[0xA5, 0x3C], 14, false⟩) ∧ 14 % 8 + 2 ≤ 8 ∧
    ([0xA5, 0x3C] : Octets)[14 / 8]? = some 0x3C := by decide

theorem witness_NewReaderAndWriterFillTheirSlot : 3 < demo.rd.length ∧ 3 < demo.wr.length := by decide

/-- For every statement about one reader: an Empty slot, a reader inside (unaligned and aligned), one at the end. -/
theorem witness_readers :
    demo.rd[1]? = some none ∧
    (demo.rd[0]? = some (some ⟨[0xA5, 0x3C], 14, false⟩) ∧ (14 : Nat) < 8 * 2 ∧ 14 % 8 ≠ 0) ∧
    (demo.rd[2]? = some (some ⟨[0xA5], 8, true⟩) ∧ (8 : Nat) = 8 * 1) ∧
    (demo.rd[3]? = some (some ⟨[0xA5, 0x3C], 8, true⟩) ∧ (8 : Nat) < 8 * 2 ∧ 8 % 8 = 0) := by decide

theorem witness_readers_inv :
    (⟨[0xA5, 0x3C], 14, false⟩ : Reader).Inv ∧ (⟨[0xA5], 8, true⟩ : Reader).Inv ∧ (⟨[0xA5, 0x3C], 8, true⟩ : Reader).Inv := by
  simp [Reader.Inv]

theorem witness_RdBitsResultIsBounded :
    ∃ t, exec (.rdBits 3 8) demo = .next t ∧ t.response = some (.ok (some (.value 60))) := ⟨_, rfl, by decide⟩

theorem witness_TwoCompleteReadsCompose :
    demo.rd[3]? = some (some ⟨[0xA5, 0x3C], 8, true⟩) ∧ 1 ≤ 3 ∧ 3 + 5 ≤ 8 ∧ 8 + 3 + 5 ≤ 8 * 2 := by decide

theorem witness_RdByteIsRdBitsEight :
    demo.rd[3]? = some (some ⟨[0xA5, 0x3C], 8, true⟩) ∧ (8 : Nat) = 8 * 1 ∧ ([0xA5, 0x3C] : Octets)[1]? = some 0x3C := by
  decide

theorem witness_ReaderAtTheEndIsTerminal :
    (∃ t, exec (.rdByte 3) demo = .next t ∧ t.rd[3]? = some (some ⟨[0xA5, 0x3C], 16, true⟩)) ∧
    demo.rd[2]? = some (some ⟨[0xA5], 8, true⟩) ∧ ∃ t, exec (.rdByte 2) demo = .next t :=
  ⟨⟨_, rfl, by decide⟩, rfl, _, rfl⟩

/-- For every statement about one writer: an Empty slot, an unaligned writer, an aligned one, an empty one. -/
theorem witness_writers :
    demo.wr[1]? = some none ∧ demo.wr[0]? = some (some ⟨bits "101"⟩) ∧ demo.wr[2]? = some (some ⟨bits "00000111"⟩) ∧
    demo.wr[3]? = some (some ⟨[]⟩) := by decide

theorem witness_WrBitsAppendsAllOrNothing :
    (∃ c ∈ chars "10x1", c ≠ 0x30#8 ∧ c ≠ 0x31#8) ∧ (∀ c ∈ chars "10", c = 0x30#8 ∨ c = 0x31#8) := by decide

theorem witness_WrByteAppendsEightBits : (0 : Int) ≤ 255 ∧ (255 : Int) ≤ 255 ∧ (255 : Int) < 256 ∧ (-1 : Int) < 0 := by
  decide

theorem witness_WrPopTakesTheLastBits :
    demo.wr[0]? = some (some ⟨bits "1" ++ bits "01"⟩) ∧ ((bits "101").length : Int) < 4 ∧ (-1 : Int) < 0 := by decide

theorem witness_PopUndoesWrite :
    ∃ t, exec (.wrBits 0 (chars "01")) demo = .next t ∧ t.response = some (.ok none) := ⟨_, rfl, by decide⟩

theorem witness_PackingIsTheMirrorOfReading :
    demo.wr[2]? = some (some ⟨streamOf [7]⟩) ∧
    ∃ t, exec (.wrFin 0 false) demo = .next t ∧ t.response = some (.ok (some (.octets [0xA1]))) ∧
      t.wr[0]? = some (some ⟨bits "10100001"⟩) ∧
      ({ t with rd := [some ⟨[0xA1], 7, true⟩] } : State).rd[0]? = some (some ⟨[0xA1], 7, true⟩) ∧
      7 < (bits "10100001").length :=
  ⟨by decide, _, rfl, by decide, by decide, rfl, by decide⟩

/-- A legal configuration, and one that no pad character makes legal. -/
theorem witness_CdNewStoresExactlyTheLegalConfigurations :
    1 < demo.cd.length ∧ (some (chars "=") = (some 0x3D : Option Byte).map fun c => [c]) ∧
    (⟨.base32, b32, some 0x3D, true⟩ : Codec).Inv ∧
    (∀ padChar : Option Byte, some (chars "==") = padChar.map (fun c => [c]) →
      ¬ (⟨.base32, b32, padChar, true⟩ : Codec).Inv) := by
  refine ⟨by decide, by decide, b32_inv _ _ (.inr rfl), fun padChar h => ?_⟩
  cases padChar with
  | none => cases h
  | some c => simp [chars] at h

theorem witness_LookupFindsTheUniqueIndex :
    (⟨.base32, b32, some 0x3D, false⟩ : Codec).Inv ∧ (⟨.base64, b64, some 0x3D, false⟩ : Codec).Inv ∧
    0x41 ≤ (0x5A : Byte).toNat ∧ (0x5A : Byte).toNat ≤ 0x5A := ⟨b32_inv _ _ (.inr rfl), b64_inv, by decide, by decide⟩

/-- For every statement about one codec: an Empty slot, b32-pad, b32-nopad-strict, b64-pad, each legal. -/
theorem witness_codecs :
    demo.cd[1]? = some none ∧
    (demo.cd[0]? = some (some ⟨.base32, b32, some 0x3D, false⟩) ∧ (⟨.base32, b32, some 0x3D, false⟩ : Codec).Inv) ∧
    (demo.cd[2]? = some (some ⟨.base32, b32, none, true⟩) ∧ (⟨.base32, b32, none, true⟩ : Codec).Inv) ∧
    (demo.cd[3]? = some (some ⟨.base64, b64, some 0x3D, false⟩) ∧ (⟨.base64, b64, some 0x3D, false⟩ : Codec).Inv) :=
  ⟨rfl, ⟨rfl, b32_inv _ _ (.inr rfl)⟩, ⟨rfl, b32_inv _ _ (.inl rfl)⟩, rfl, b64_inv⟩

/-- The default codecs are those configurations. -/
theorem witness_defaultCodecs : defaultBase32 = ⟨.base32, b32, some 0x3D, false⟩ ∧
    defaultBase64 = ⟨.base64, b64, some 0x3D, false⟩ := by decide

/-- An accepted string without an overcut, and one that is not accepted. -/
theorem witness_accepted :
    (AcceptedAs ⟨.base32, b32, some 0x3D, false⟩ (chars "my======") [12, 24] ∧ ¬ Overcut .base32 [12, 24]) ∧
    ¬ ∃ symbols, AcceptedAs ⟨.base32, b32, some 0x3D, false⟩ (chars "mz======") symbols := by
  refine ⟨⟨(Codec.decodeRaw_ok_iff (b32_inv _ _ (.inr rfl))).mp (by decide), by unfold Overcut; decide⟩, ?_⟩
  rintro ⟨symbols, h⟩
  have hd : Codec.decodeRaw ⟨.base32, b32, some 0x3D, false⟩ (chars "mz======") = .error .invalidFormat := by decide
  rw [(Codec.decodeRaw_ok_iff (b32_inv _ _ (.inr rfl))).mpr h] at hd
  cases hd

theorem witness_encoders_decoders_validators :
    EncodesWith demo (.cdEnc 3 [0x66]) ⟨.base64, b64, some 0x3D, false⟩ [0x66] ∧
    EncodesWith demo (.enc32 [0x66]) defaultBase32 [0x66] ∧ EncodesWith demo (.enc64 [0x66]) defaultBase64 [0x66] ∧
    DecodesWith demo (.cdDec 0 (chars "my")) ⟨.base32, b32, some 0x3D, false⟩ (chars "my") ∧
    DecodesWith demo (.dec64 (chars "Zg")) defaultBase64 (chars "Zg") ∧
    ValidatesWith demo (.cdValid 3 (chars "Zg")) ⟨.base64, b64, some 0x3D, false⟩ (chars "Zg") ∧
    ValidatesWith demo (.valid32 []) defaultBase32 [] ∧ ValidatesWith demo (.valid64 []) defaultBase64 [] :=
  ⟨.inl ⟨3, rfl, rfl⟩, .inr (.inl ⟨rfl, rfl⟩), .inr (.inr ⟨rfl, rfl⟩), .inl ⟨0, rfl, rfl⟩, .inr (.inr ⟨rfl, rfl⟩),
    .inl ⟨3, rfl, rfl⟩, .inr (.inl ⟨rfl, rfl⟩), .inr (.inr ⟨rfl, rfl⟩)⟩

theorem witness_ValidityImpliesDecodability :
    (∃ t, exec (.cdValid 0 (chars "aaa")) demo = .next t ∧ t.response = some (.ok (some (.value 1)))) ∧
    ∃ t, exec (.cdValid 0 (chars "mz")) demo = .next t ∧ t.response = some (.ok (some (.value 0))) :=
  ⟨⟨_, rfl, by decide⟩, _, rfl, by decide⟩

/-- A strict codec without a pad, at the length where its encoding decodes: five bytes, eight symbols. -/
theorem witness_DecodingAnEncodingGivesTheBytesBack :
    EncodesWith demo (.cdEnc 2 (chars "fooba")) ⟨.base32, b32, none, true⟩ (chars "fooba") ∧
    ∃ t, exec (.cdEnc 2 (chars "fooba")) demo = .next t ∧
      t.response = some (.ok (some (.octets (chars "mzxw6ytb")))) ∧
      DecodesWith t (.cdDec 2 (chars "mzxw6ytb")) ⟨.base32, b32, none, true⟩ (chars "mzxw6ytb") ∧
      (chars "mzxw6ytb").length % groupSize .base32 = 0 :=
  ⟨.inl ⟨2, rfl, rfl⟩, _, rfl, by decide, .inl ⟨2, rfl, rfl⟩, by decide⟩

theorem witness_StrictUnpaddedCodecRejectsItsShortEncodings :
    ∃ t, exec (.cdEnc 2 [0x66]) demo = .next t ∧ t.response = some (.ok (some (.octets (chars "my")))) ∧
      (chars "my").length % groupSize .base32 ≠ 0 := ⟨_, rfl, by decide, by decide⟩

/-- An OK response of each kind of command, and an error. -/
theorem witness_WriterLengthFollowsTheCommands :
    demo.wr[0]? = some (some ⟨bits "101"⟩) ∧
    (∃ t, exec (.wrBits 0 (chars "01")) demo = .next t ∧ t.response = some (.ok none)) ∧
    (∃ t, exec (.wrByte 0 7) demo = .next t ∧ t.response = some (.ok none)) ∧
    (∃ t, exec (.wrPad 0 true) demo = .next t ∧ t.response = some (.ok none)) ∧
    (∃ t, exec (.wrFin 0 false) demo = .next t ∧ t.response = some (.ok (some (.octets [0xA1])))) ∧
    (∃ t, exec (.wrPop 0 3) demo = .next t ∧ t.response = some (.ok (some (.octets (chars "101"))))) ∧
    ∃ t, exec (.wrPop 0 4) demo = .next t ∧ t.response = some (.error .invalidArgument) :=
  ⟨rfl, ⟨_, rfl, by decide⟩, ⟨_, rfl, by decide⟩, ⟨_, rfl, by decide⟩, ⟨_, rfl, by decide⟩, ⟨_, rfl, by decide⟩,
    _, rfl, by decide⟩

theorem witness_WritingBytesAndFinishingReturnsThem : demo.wr[3]? = some (some { bits := [] }) := rfl

end Sys2Proof.Tests
end

