-- ==== Sys2Proof/Proofs/Scope.lean ====
section
/-! The three outcomes of a command (00_scope.md R10), read off `exec_effect`. -/

namespace Sys2Proof.Machine

/-- A command that is refused has the effect `overcut`: every other effect goes on to a next state
(43_basen_codec.md R169). -/
theorem exec_refused {i : Instr} {s : State} {why : Refusal} (h : exec i s = .refused why) :
    why = .decodeOvercut ∧
      ∃ cfg e symbols, DecodesWith s i cfg e ∧ AcceptedAs cfg e symbols ∧ Overcut cfg.base symbols := by
  have heffect : Effect i s (.refused why) := h ▸ exec_effect s i
  cases heffect with
  | overcut hdec hacc hover => exact ⟨rfl, _, _, _, hdec, hacc, hover⟩

/-- Settles O13, by the outcome of the command: a next state carries a response, the machine has no fault, and a
refusal is the overcut. -/
theorem everyCommandAnswersOrIsTheOneRefusal : Obligations.EveryCommandAnswersOrIsTheOneRefusal := by
  intro i s
  cases h : exec i s with
  | next t =>
    obtain ⟨hresponse, hcommands⟩ := exec_answers h
    obtain ⟨response, hresponse⟩ := Option.ne_none_iff_exists'.mp hresponse
    exact .inl ⟨t, response, rfl, hresponse, hcommands⟩
  | fault why => cases why
  | refused why =>
    obtain ⟨rfl, hovercut⟩ := exec_refused h
    exact .inr ⟨rfl, hovercut⟩

end Sys2Proof.Machine
end

