-- ==== Sys2Proof/Proofs/State.lean ====
section
/-! The state (10_state.md): what reset leaves, the invariant every step keeps, and the one slot a command reads and
writes. The invariant and the reader's fields are read off `exec_effect`; isolation (R33) is read off `exec_local`,
which says that the content of a command's own slot fixes what the command does. -/

namespace Sys2Proof.Machine

/-! ## Reset -/

/-- A slot that reset leaves Empty is one the machine has (10_state.md R31). -/
theorem State.resetWith_slotEmpty_iff (nr nw nc : Nat) (array : SlotArray) (k : Nat) :
    (State.resetWith nr nw nc).SlotEmpty array k ↔
      k < match array with | .rd => nr | .wr => nw | .cd => nc := by
  cases array <;> simp [State.SlotEmpty, List.getElem?_replicate]

theorem State.resetWith_slotMissing_iff (nr nw nc : Nat) (array : SlotArray) (k : Nat) :
    (State.resetWith nr nw nc).SlotMissing array k ↔
      (match array with | .rd => nr | .wr => nw | .cd => nc) ≤ k := by
  cases array <;> simp [State.SlotMissing]

/-- Settles O8: a slot below the count is Empty, every other is missing. -/
theorem resetLeavesEverySlotEmpty : Obligations.ResetLeavesEverySlotEmpty := by
  refine ⟨fun nr nw nc array k => ⟨State.resetWith_slotEmpty_iff nr nw nc array k, ?_⟩, rfl, rfl, rfl⟩
  rw [State.resetWith_slotEmpty_iff, State.resetWith_slotMissing_iff]
  exact Nat.lt_or_ge _ _

theorem State.resetWith_inv {nr nw nc : Nat} (hr : 1 ≤ nr ∧ nr ≤ 16) (hw : 1 ≤ nw ∧ nw ≤ 16)
    (hc : 1 ≤ nc ∧ nc ≤ 16) : (State.resetWith nr nw nc).Inv where
  readerSlots := by simpa using hr
  writerSlots := by simpa using hw
  codecSlots := by simpa using hc
  readers := by simp [List.mem_replicate]
  codecs := by simp [List.mem_replicate]

theorem defaultBase32_inv : defaultBase32.Inv where
  size := by decide
  distinct := by
    show Parameters.base32Alphabet.Pairwise fun a b => fold a ≠ fold b
    decide
  pad := by
    rintro _ ⟨⟩
    show Parameters.defaultPad ∉ Parameters.base32Alphabet
    decide

theorem defaultBase64_inv : defaultBase64.Inv where
  size := by decide
  distinct := by
    show Parameters.base64Alphabet.Pairwise fun a b => a ≠ b
    decide
  pad := by
    rintro _ ⟨⟩
    show Parameters.defaultPad ∉ Parameters.base64Alphabet
    decide

/-- Settles O9: Empty slots hold nothing illegal, and the default alphabets are checked character by character. -/
theorem resetMeetsTheInvariant : Obligations.ResetMeetsTheInvariant :=
  ⟨fun _ _ _ hr hr' hw hw' hc hc' => State.resetWith_inv ⟨hr, hr'⟩ ⟨hw, hw'⟩ ⟨hc, hc'⟩,
    State.resetWith_inv (by decide) (by decide) (by decide), defaultBase32_inv, defaultBase64_inv⟩

/-! ## One step -/

theorem step_of_no_command {s : State} (h : s.commands = []) : step s = .next s := by
  simp [step, State.takeCommand, State.idle, h]

/-- Settles O6. -/
theorem noCommandNoChange : Obligations.NoCommandNoChange := fun _ => step_of_no_command

/-- Everything a step that goes on can do: nothing, execute the packet's command, or answer an illegal packet. -/
theorem step_cases {s t : State} (h : step s = .next t) :
    (s.commands = [] ∧ t = s) ∨
    ∃ pk rest, s.commands = pk :: rest ∧
      ((∃ i, decode pk = .ok i ∧ exec i { s with commands := rest } = .next t) ∨
       (∃ cause, decode pk = .error cause ∧
        t = { s with commands := rest, response := some (.error .illegalCommand) })) := by
  cases hc : s.commands with
  | nil =>
    rw [step_of_no_command hc] at h
    cases h
    exact .inl ⟨rfl, rfl⟩
  | cons pk rest =>
    refine .inr ⟨pk, rest, rfl, ?_⟩
    simp only [step, State.takeCommand, hc] at h
    cases hd : decode pk with
    | ok i =>
      rw [hd] at h
      exact .inl ⟨i, rfl, h⟩
    | error cause =>
      rw [hd] at h
      exact .inr ⟨cause, rfl, State.raise_next_iff.mp h⟩

/-! ## The invariant -/

section
variable {s : State} (hs : s.Inv)
include hs

/-- The invariant speaks of the arrays alone. -/
theorem State.Inv.hostSide (commands : List Packet) (response : Option Response) :
    ({ s with commands := commands, response := response } : State).Inv :=
  ⟨hs.readerSlots, hs.writerSlots, hs.codecSlots, hs.readers, hs.codecs⟩

theorem State.Inv.setReader {r : Reader} (k : Nat) (hr : r.Inv) : (s.setReader k r).Inv where
  readerSlots := by simpa using hs.readerSlots
  writerSlots := hs.writerSlots
  codecSlots := hs.codecSlots
  readers r' hr' := by
    rcases List.mem_or_eq_of_mem_set hr' with h | h
    · exact hs.readers r' h
    · cases h
      exact hr
  codecs := hs.codecs

theorem State.Inv.setWriter (k : Nat) (w : Writer) : (s.setWriter k w).Inv where
  readerSlots := hs.readerSlots
  writerSlots := by simpa using hs.writerSlots
  codecSlots := hs.codecSlots
  readers := hs.readers
  codecs := hs.codecs

theorem State.Inv.setCodec {c : Codec} (k : Nat) (hc : c.Inv) : (s.setCodec k c).Inv where
  readerSlots := hs.readerSlots
  writerSlots := hs.writerSlots
  codecSlots := by simpa using hs.codecSlots
  readers := hs.readers
  codecs c' hc' := by
    rcases List.mem_or_eq_of_mem_set hc' with h | h
    · exact hs.codecs c' h
    · cases h
      exact hc

end

theorem Reader.new_inv (buffer : Octets) (truncate : Bool) : (Reader.new buffer truncate).Inv := Nat.zero_le _

/-- A command that goes on keeps the invariant: a read stays inside its buffer and a constructed codec was checked. -/
theorem exec_keeps_inv {i : Instr} {s t : State} (hs : s.Inv) (h : exec i s = .next t) : t.Inv := by
  have heffect : Effect i s (.next t) := h ▸ exec_effect s i
  cases heffect with
  | raised => exact hs.hostSide _ _
  | answered => exact hs.hostSide _ _
  | @readerMoved k r m _ _ _ hm =>
    obtain ⟨-, -, hinside⟩ := hm
    have hr : ({ r with bitPosition := r.bitPosition + m } : Reader).Inv := hinside
    exact (hs.setReader k hr).hostSide _ _
  | readerNew => exact (hs.setReader _ (Reader.new_inv _ _)).hostSide _ _
  | writerSet => exact (hs.setWriter _ _).hostSide _ _
  | codecNew _ _ hc => exact (hs.setCodec _ hc).hostSide _ _

/-- Settles O10: taking a packet off the host's list and answering touch no slot; the rest is `exec_keeps_inv`. -/
theorem everyStepKeepsTheInvariant : Obligations.EveryStepKeepsTheInvariant := by
  intro s t hs h
  rcases step_cases h with ⟨-, rfl⟩ | ⟨pk, rest, -, ⟨i, -, hexec⟩ | ⟨cause, -, rfl⟩⟩
  · exact hs
  · exact exec_keeps_inv (hs.hostSide rest s.response) hexec
  · exact hs.hostSide _ _

/-! ## The fields of a reader -/

/-- What a command may do to a reader it does not construct: move the position on, by the three commands that read
(10_state.md R22). -/
def Reader.MovedOnlyBy (i : Instr) (k : Nat) (r r' : Reader) : Prop :=
  r'.buffer = r.buffer ∧ r'.truncate = r.truncate ∧ r.bitPosition ≤ r'.bitPosition ∧
    (r'.bitPosition ≠ r.bitPosition → (∃ n, i = .rdBits k n) ∨ i = .rdByte k ∨ ∃ force, i = .rdAlign k force)

theorem Reader.MovedOnlyBy.refl (i : Instr) (k : Nat) (r : Reader) : Reader.MovedOnlyBy i k r r :=
  ⟨rfl, rfl, Nat.le_refl _, fun h => absurd rfl h⟩

/-- A command that goes on and does not construct the reader in a slot leaves one there, moved at most. -/
theorem exec_reader_moved {i : Instr} {s t : State} {k : Nat} {r : Reader} (h : exec i s = .next t)
    (hr : s.rd[k]? = some (some r)) (hnew : ∀ truncate bytes, i ≠ .rdNew k truncate bytes) :
    ∃ r', t.rd[k]? = some (some r') ∧ Reader.MovedOnlyBy i k r r' := by
  have hk : k < s.rd.length := lt_of_getElem?_some hr
  have heffect : Effect i s (.next t) := h ▸ exec_effect s i
  cases heffect with
  | raised => exact ⟨r, hr, .refl i k r⟩
  | answered => exact ⟨r, hr, .refl i k r⟩
  | @readerMoved j r₀ m _ hcmd hr₀ =>
    by_cases hj : j = k
    · subst hj
      obtain rfl : r₀ = r := by simpa [hr] using hr₀.symm
      exact ⟨_, List.getElem?_set_self hk, rfl, rfl, Nat.le_add_right _ _, fun _ => hcmd⟩
    · exact ⟨r, (List.getElem?_set_ne hj).trans hr, .refl i k r⟩
  | @readerNew j _ _ hcmd =>
    have hj : j ≠ k := fun hj => hnew _ _ (hj ▸ hcmd)
    exact ⟨r, (List.getElem?_set_ne hj).trans hr, .refl i k r⟩
  | writerSet => exact ⟨r, hr, .refl i k r⟩
  | codecNew => exact ⟨r, hr, .refl i k r⟩

theorem exec_rdNew {s t : State} {k : Nat} {truncate : Bool} {bytes : Octets}
    (h : exec (.rdNew k truncate bytes) s = .next t) (hk : k < s.rd.length) :
    t = { s.setReader k (Reader.new bytes truncate) with response := some (.ok none) } := by
  change s.withSlot s.rd.length k _ = _ at h
  rw [State.withSlot_present hk] at h
  exact State.reply_next_iff.mp h

/-- Settles O22: `exec_reader_moved` for every command but the slot's own construction, and what that stores. -/
theorem readerFieldsChangeOnlyAsAllowed : Obligations.ReaderFieldsChangeOnlyAsAllowed := by
  refine ⟨fun i s t k r => exec_reader_moved, fun s t k truncate bytes h hk => ?_⟩
  rw [exec_rdNew h hk]
  exact List.getElem?_set_self hk

/-! ## A write to one slot -/

section
variable (s : State) (j : Nat) (array : SlotArray) (k : Nat)

/-- The content of a slot does not lie on the host's side. -/
theorem State.slotAt_hostSide (commands : List Packet) (response : Option Response) :
    ({ s with commands := commands, response := response } : State).slotAt array k = s.slotAt array k := by
  cases array <;> rfl

theorem State.slotAt_setReader (r : Reader) :
    (s.setReader j r).slotAt array k =
      if (SlotArray.rd, j) = (array, k) then .reader (s.rd[k]?.map fun _ => some r) else s.slotAt array k := by
  cases array <;> simp [State.slotAt, List.getElem?_set', Function.const_def, apply_ite SlotContent.reader]

theorem State.slotAt_setWriter (w : Writer) :
    (s.setWriter j w).slotAt array k =
      if (SlotArray.wr, j) = (array, k) then .writer (s.wr[k]?.map fun _ => some w) else s.slotAt array k := by
  cases array <;> simp [State.slotAt, List.getElem?_set', Function.const_def, apply_ite SlotContent.writer]

theorem State.slotAt_setCodec (c : Codec) :
    (s.setCodec j c).slotAt array k =
      if (SlotArray.cd, j) = (array, k) then .codec (s.cd[k]?.map fun _ => some c) else s.slotAt array k := by
  cases array <;> simp [State.slotAt, List.getElem?_set', Function.const_def, apply_ite SlotContent.codec]

end

/-- What a command writes in the three arrays: nothing, or one whole slot. -/
inductive Update where
  | nothing
  | reader (k : Nat) (r : Reader)
  | writer (k : Nat) (w : Writer)
  | codec  (k : Nat) (c : Codec)

namespace Update

/-- The state with the slot written. -/
def apply : Update → State → State
  | .nothing, s => s
  | .reader k r, s => s.setReader k r
  | .writer k w, s => s.setWriter k w
  | .codec k c, s => s.setCodec k c

/-- The slot written. -/
def target : Update → Option (SlotArray × Nat)
  | .nothing => none
  | .reader k _ => some (.rd, k)
  | .writer k _ => some (.wr, k)
  | .codec k _ => some (.cd, k)

theorem apply_sameCounts (u : Update) (s : State) : s.SameCounts (u.apply s) := by
  cases u <;> simp [State.SameCounts, apply]

theorem apply_hostSide (u : Update) (s : State) (commands : List Packet) (response : Option Response) :
    u.apply { s with commands := commands, response := response } =
      { u.apply s with commands := commands, response := response } := by
  cases u <;> rfl

theorem slotAt_apply_of_ne (u : Update) (s : State) {array : SlotArray} {k : Nat} (h : u.target ≠ some (array, k)) :
    (u.apply s).slotAt array k = s.slotAt array k := by
  have hne {ref : SlotArray × Nat} (hu : u.target = some ref) : ref ≠ (array, k) := fun href => h (href ▸ hu)
  cases u with
  | nothing => rfl
  | reader j r => exact (s.slotAt_setReader j array k r).trans (if_neg (hne rfl))
  | writer j w => exact (s.slotAt_setWriter j array k w).trans (if_neg (hne rfl))
  | codec j c => exact (s.slotAt_setCodec j array k c).trans (if_neg (hne rfl))

/-- A written slot holds what was written, or is missing as before: its new content is fixed by its old one. -/
theorem slotAt_apply_congr (u : Update) {s₁ s₂ : State} {array : SlotArray} {k : Nat}
    (h : s₁.slotAt array k = s₂.slotAt array k) : (u.apply s₁).slotAt array k = (u.apply s₂).slotAt array k := by
  by_cases htarget : u.target = some (array, k)
  · cases u with
    | nothing => exact h
    | reader j r =>
      cases htarget
      simpa [apply, State.slotAt_setReader] using congrArg (Option.map fun _ => some r) (SlotContent.reader.inj h)
    | writer j w =>
      cases htarget
      simpa [apply, State.slotAt_setWriter] using congrArg (Option.map fun _ => some w) (SlotContent.writer.inj h)
    | codec j c =>
      cases htarget
      simpa [apply, State.slotAt_setCodec] using congrArg (Option.map fun _ => some c) (SlotContent.codec.inj h)
  · rw [u.slotAt_apply_of_ne s₁ htarget, u.slotAt_apply_of_ne s₂ htarget, h]

end Update

/-! ## A command acts on its own slot alone -/

/-- What a command does once the content of its slot is known. -/
inductive Action where
  | answer (update : Update) (response : Response)
  | refuse (why : Refusal)

/-- The action that answers with an error. -/
def Action.raise (kind : ErrorKind) : Action := .answer .nothing (.error kind)

/-- The action in a state; the response replaces the last one. -/
def Action.run : Action → State → StepOutcome
  | .answer u response, s => .next { u.apply s with response := some response }
  | .refuse why, _ => .refused why

/-- The slot the action writes. -/
def Action.target : Action → Option (SlotArray × Nat)
  | .answer u _ => u.target
  | .refuse _ => none

/-- The states hold the same in the slot named, if one is. -/
def State.AgreeOn (ref : Option (SlotArray × Nat)) (s₁ s₂ : State) : Prop :=
  ∀ array k, ref = some (array, k) → s₁.slotAt array k = s₂.slotAt array k

namespace State.AgreeOn

theorem refl (ref : Option (SlotArray × Nat)) (s : State) : s.AgreeOn ref s := fun _ _ _ => rfl

variable {s s' : State} {k : Nat}

theorem rd_eq (h : s.AgreeOn (some (.rd, k)) s') : s'.rd[k]? = s.rd[k]? :=
  (SlotContent.reader.inj (h .rd k rfl)).symm

theorem wr_eq (h : s.AgreeOn (some (.wr, k)) s') : s'.wr[k]? = s.wr[k]? :=
  (SlotContent.writer.inj (h .wr k rfl)).symm

theorem cd_eq (h : s.AgreeOn (some (.cd, k)) s') : s'.cd[k]? = s.cd[k]? :=
  (SlotContent.codec.inj (h .cd k rfl)).symm

end State.AgreeOn

/-- `f` works on the slot `ref` alone: what the slot holds fixes the action, which writes no other slot. -/
def LocalTo (ref : Option (SlotArray × Nat)) (f : State → StepOutcome) : Prop :=
  ∀ s : State, ∃ a : Action, (a.target = none ∨ a.target = ref) ∧ ∀ s' : State, s.AgreeOn ref s' → f s' = a.run s'

namespace LocalTo

section
variable {ref : Option (SlotArray × Nat)}

theorem run (a : Action) (h : a.target = none ∨ a.target = ref) : LocalTo ref a.run :=
  fun _ => ⟨a, h, fun _ _ => rfl⟩

theorem raise (kind : ErrorKind) : LocalTo ref fun s => s.raise kind :=
  run (.raise kind) (.inl rfl)

theorem reply (result : Option Result) : LocalTo ref fun s => s.reply result :=
  run (.answer .nothing (.ok result)) (.inl rfl)

theorem replyDecoded (d : Decoded) : LocalTo ref fun s => s.replyDecoded d := by
  cases d with
  | bytes b => exact reply _
  | error kind => exact raise kind
  | overcut => exact run (.refuse .decodeOvercut) (.inl rfl)

/-- Working on what a slot holds, its content fixed by the agreement. -/
theorem onInstance {α : Type} {content : State → Option (Option α)} {f : State → StepOutcome}
    {g : α → State → StepOutcome} (hcontent : ∀ s s', s.AgreeOn ref s' → content s' = content s)
    (hmissing : ∀ s, content s = none → f s = s.raise .illegalCommand)
    (hempty : ∀ s, content s = some none → f s = s.raise .noInstance)
    (hinstance : ∀ s a, content s = some (some a) → f s = g a s) (hg : ∀ a, LocalTo ref (g a)) : LocalTo ref f := by
  intro s
  cases hs : content s with
  | none =>
    exact ⟨.raise .illegalCommand, .inl rfl, fun s' hagree => hmissing s' ((hcontent s s' hagree).trans hs)⟩
  | some slot =>
    cases slot with
    | none =>
      exact ⟨.raise .noInstance, .inl rfl, fun s' hagree => hempty s' ((hcontent s s' hagree).trans hs)⟩
    | some x =>
      obtain ⟨a, htarget, hrun⟩ := hg x s
      exact ⟨a, htarget, fun s' hagree =>
        (hinstance s' x ((hcontent s s' hagree).trans hs)).trans (hrun s' hagree)⟩

/-- Constructing into a slot whose existence the agreement fixes. -/
theorem withSlot {count : State → Nat} {k : Nat} {f : State → StepOutcome}
    (hcount : ∀ s s', s.AgreeOn ref s' → (count s' ≤ k ↔ count s ≤ k)) (hf : LocalTo ref f) :
    LocalTo ref fun s => s.withSlot (count s) k (f s) := by
  intro s
  rcases Nat.lt_or_ge k (count s) with hk | hk
  · obtain ⟨a, htarget, hrun⟩ := hf s
    refine ⟨a, htarget, fun s' hagree => ?_⟩
    have hk' : k < count s' := Nat.lt_of_not_le fun h => Nat.not_le.mpr hk ((hcount s s' hagree).mp h)
    exact (State.withSlot_present hk').trans (hrun s' hagree)
  · exact ⟨.raise .illegalCommand, .inl rfl, fun s' hagree =>
      State.withSlot_missing ((hcount s s' hagree).mpr hk)⟩

end

/-! The three arrays. -/

section
variable {k : Nat}

theorem setReader (r : Reader) (result : Option Result) :
    LocalTo (some (.rd, k)) fun s => (s.setReader k r).reply result :=
  run (.answer (.reader k r) (.ok result)) (.inr rfl)

theorem setWriter (w : Writer) (result : Option Result) :
    LocalTo (some (.wr, k)) fun s => (s.setWriter k w).reply result :=
  run (.answer (.writer k w) (.ok result)) (.inr rfl)

theorem setCodec (c : Codec) (result : Option Result) :
    LocalTo (some (.cd, k)) fun s => (s.setCodec k c).reply result :=
  run (.answer (.codec k c) (.ok result)) (.inr rfl)

theorem withReader {f : Reader → State → StepOutcome} (hf : ∀ r, LocalTo (some (.rd, k)) (f r)) :
    LocalTo (some (.rd, k)) fun s => s.withReader k fun r => f r s :=
  onInstance (content := fun s => s.rd[k]?) (fun _ _ h => h.rd_eq)
    (fun _ h => State.withReader_missing (List.getElem?_eq_none_iff.mp h)) (fun _ => State.withReader_empty)
    (fun _ _ => State.withReader_instance) hf

theorem withWriter {f : Writer → State → StepOutcome} (hf : ∀ w, LocalTo (some (.wr, k)) (f w)) :
    LocalTo (some (.wr, k)) fun s => s.withWriter k fun w => f w s :=
  onInstance (content := fun s => s.wr[k]?) (fun _ _ h => h.wr_eq)
    (fun _ h => State.withWriter_missing (List.getElem?_eq_none_iff.mp h)) (fun _ => State.withWriter_empty)
    (fun _ _ => State.withWriter_instance) hf

theorem withCodec {f : Codec → State → StepOutcome} (hf : ∀ c, LocalTo (some (.cd, k)) (f c)) :
    LocalTo (some (.cd, k)) fun s => s.withCodec k fun c => f c s :=
  onInstance (content := fun s => s.cd[k]?) (fun _ _ h => h.cd_eq)
    (fun _ h => State.withCodec_missing (List.getElem?_eq_none_iff.mp h)) (fun _ => State.withCodec_empty)
    (fun _ _ => State.withCodec_instance) hf

theorem newReader {f : State → StepOutcome} (hf : LocalTo (some (.rd, k)) f) :
    LocalTo (some (.rd, k)) fun s => s.withSlot s.rd.length k (f s) :=
  withSlot (fun _ _ h => by rw [← List.getElem?_eq_none_iff, h.rd_eq, List.getElem?_eq_none_iff]) hf

theorem newWriter {f : State → StepOutcome} (hf : LocalTo (some (.wr, k)) f) :
    LocalTo (some (.wr, k)) fun s => s.withSlot s.wr.length k (f s) :=
  withSlot (fun _ _ h => by rw [← List.getElem?_eq_none_iff, h.wr_eq, List.getElem?_eq_none_iff]) hf

theorem newCodec {f : State → StepOutcome} (hf : LocalTo (some (.cd, k)) f) :
    LocalTo (some (.cd, k)) fun s => s.withSlot s.cd.length k (f s) :=
  withSlot (fun _ _ h => by rw [← List.getElem?_eq_none_iff, h.cd_eq, List.getElem?_eq_none_iff]) hf

end

end LocalTo

/-- Every command works on its own slot alone (10_state.md R33). -/
theorem exec_local (i : Instr) : LocalTo i.slotRef (exec i) := by
  cases i with
  | maskbits byte i0 i1 =>
    change LocalTo none (execMaskbits byte i0 i1)
    unfold execMaskbits
    cases maskBits byte i0 i1 with
    | ok v => exact .reply _
    | error kind => exact .raise kind
  | padbits bitString n =>
    change LocalTo none (execPadbits bitString n)
    unfold execPadbits
    cases padBits Parameters.padBitsEmpty bitString n with
    | ok padded => exact .reply _
    | error kind => exact .raise kind
  | byte2bits byte n prefixed =>
    change LocalTo none (execByte2bits byte n prefixed)
    unfold execByte2bits
    cases byteToBits byte n prefixed with
    | ok digits => exact .reply _
    | error kind => exact .raise kind
  | getbit bytes n =>
    change LocalTo none (execGetbit bytes n)
    unfold execGetbit
    cases getBit bytes n with
    | ok b => exact .reply _
    | error kind => exact .raise kind
  | rdNew k truncate bytes => exact .newReader (.setReader _ _)
  | rdEof k => exact .withReader fun r => .reply _
  | rdBits k n =>
    refine .withReader fun r => ?_
    cases r.readBits n with
    | ok read => exact .setReader read.2 _
    | error kind => exact .raise kind
  | rdAlign k force =>
    refine .withReader fun r => ?_
    cases r.moveToByteBoundary force with
    | ok after => exact .setReader after _
    | error kind => exact .raise kind
  | rdByte k =>
    refine .withReader fun r => ?_
    cases r.readBits 8 with
    | ok read => exact .setReader read.2 _
    | error kind => exact .raise kind
  | wrNew k => exact .newWriter (.setWriter _ _)
  | wrLen k => exact .withWriter fun w => .reply _
  | wrBits k bitString =>
    refine .withWriter fun w => ?_
    cases w.writeBits bitString with
    | ok after => exact .setWriter after _
    | error kind => exact .raise kind
  | wrByte k byte =>
    refine .withWriter fun w => ?_
    cases w.writeByte byte with
    | ok after => exact .setWriter after _
    | error kind => exact .raise kind
  | wrPad k force => exact .withWriter fun w => .setWriter _ _
  | wrPop k n =>
    refine .withWriter fun w => ?_
    cases w.pop n with
    | ok popped => exact .setWriter popped.2 _
    | error kind => exact .raise kind
  | wrFin k force => exact .withWriter fun w => .setWriter _ _
  | cdNew k base strict alphabet pad =>
    refine .newCodec ?_
    cases Codec.construct base strict alphabet pad with
    | ok c => exact .setCodec c _
    | error kind => exact .raise kind
  | cdEncraw k bytes => exact .withCodec fun c => .reply _
  | cdEnc k bytes => exact .withCodec fun c => .reply _
  | cdDecraw k encoded =>
    refine .withCodec fun c => ?_
    cases c.decodeRaw encoded with
    | ok symbols => exact .reply _
    | error kind => exact .raise kind
  | cdDec k encoded => exact .withCodec fun c => .replyDecoded _
  | cdValid k encoded => exact .withCodec fun c => .reply _
  | enc32 bytes => exact .reply _
  | dec32 encoded => exact .replyDecoded _
  | valid32 encoded => exact .reply _
  | enc64 bytes => exact .reply _
  | dec64 encoded => exact .replyDecoded _
  | valid64 encoded => exact .reply _

/-- Settles O18: the action of a command writes its own slot or none. -/
theorem commandWritesOnlyItsOwnSlot : Obligations.CommandWritesOnlyItsOwnSlot := by
  intro i s t h
  obtain ⟨a, htarget, hrun⟩ := exec_local i s
  rw [hrun s (.refl _ s)] at h
  cases a with
  | answer u response =>
    cases h
    refine ⟨u.apply_sameCounts s, fun array k hne => ?_⟩
    have hother : u.target ≠ some (array, k) := fun hu =>
      htarget.elim (fun hnone => nomatch hu.symm.trans hnone) (fun hown => hne (hown.symm.trans hu))
    exact (State.slotAt_hostSide _ array k _ _).trans (u.slotAt_apply_of_ne s hother)
  | refuse why => cases h

/-- Settles O19: states that agree on the command's slot see the same action, and its write leaves the same there. -/
theorem commandReadsOnlyItsOwnSlot : Obligations.CommandReadsOnlyItsOwnSlot := by
  intro i s₁ s₂ hagree
  obtain ⟨a, -, hrun⟩ := exec_local i s₁
  rw [hrun s₁ (.refl _ s₁), hrun s₂ hagree]
  cases a with
  | answer u response =>
    refine ⟨fun t₁ h => ?_, nofun⟩
    cases h
    refine ⟨_, rfl, rfl, fun array k hslot => ?_⟩
    calc _ = (u.apply s₂).slotAt array k := State.slotAt_hostSide _ array k _ _
      _ = (u.apply s₁).slotAt array k := (u.slotAt_apply_congr (hagree array k hslot)).symm
      _ = _ := (State.slotAt_hostSide _ array k _ _).symm
  | refuse why => exact ⟨nofun, fun _ h => h⟩

/-- Settles O20: the host's side lies in no slot, so the action is the same, and an action writes the response without
reading it. -/
theorem hostSideIsNeverRead : Obligations.HostSideIsNeverRead := by
  intro i s commands response
  obtain ⟨a, -, hrun⟩ := exec_local i s
  have hagree : s.AgreeOn i.slotRef { s with commands := commands, response := response } :=
    fun array k _ => (s.slotAt_hostSide array k commands response).symm
  rw [hrun s (.refl _ s), hrun _ hagree]
  cases a with
  | answer u answered =>
    refine ⟨fun t h => ?_, nofun⟩
    cases h
    rw [Action.run, u.apply_hostSide]
  | refuse why => exact ⟨nofun, fun _ h => h⟩

end Sys2Proof.Machine
end

