-- ==== Sys2Proof/Proofs/Encoding.lean ====
section
/-! The encoding (30_encoding.md): decode and encode agree in both directions, the opcode table agrees with the header's
fields, and what a step makes of a packet, legal or not. The decoder and the encoder meet in `Opcode.packet`, the packet
of a row with every field the row does not use at 0. -/

namespace Sys2Proof

/-! ## The fields a row uses -/

/-- Flag `B` in the header of a row: the base in `CD.NEW`, fixed by the row elsewhere (30_encoding.md R65). -/
def Opcode.flagB : Opcode → Bool → Bool
  | .cdNew, b => b
  | .enc64, _ | .dec64, _ | .valid64, _ => true
  | _, _ => false

/-- The array a row works on, if it names a slot (30_encoding.md R64). -/
def Opcode.array : Opcode → Option SlotArray
  | .rdNew | .rdEof | .rdBits | .rdAlign | .rdByte => some .rd
  | .wrNew | .wrLen | .wrBits | .wrByte | .wrPad | .wrPop | .wrFin => some .wr
  | .cdNew | .cdEncraw | .cdEnc | .cdDecraw | .cdDec | .cdValid => some .cd
  | _ => none

/-- The slot number in the header of a row: 0 where the row names none. -/
def Opcode.slotField (op : Opcode) (slot : Nat) : Nat := if op.usesSlot then slot else 0

/-- The packet of a row, every field the row does not use at 0 (30_encoding.md R61, R65; D3). -/
def Opcode.packet (op : Opcode) (slot : Nat) (f p b : Bool) (operands : List Int) (payloads : List Octets) : Packet :=
  ⟨encodeHeader op (op.slotField slot) (op.usesF && f) (op.usesP && p) (op.flagB b), operands, payloads⟩

/-- What the rows ask of flag `B` in three clauses is one equation. -/
theorem Opcode.flagB_eq_iff (op : Opcode) (b : Bool) :
    op.flagB b = b ↔ (op.usesB = false → b = false) ∧ (op ∈ [.enc32, .dec32, .valid32] → b = false) ∧
      (op ∈ [.enc64, .dec64, .valid64] → b = true) := by
  cases b <;> cases op <;> decide

theorem usedFlag_eq_iff (used flag : Bool) : (used && flag) = flag ↔ (used = false → flag = false) := by
  cases used <;> simp [eq_comm]

theorem Opcode.slotField_eq_iff (op : Opcode) (slot : Nat) :
    op.slotField slot = slot ↔ (op.usesSlot = false → slot = 0) := by
  unfold Opcode.slotField
  cases op.usesSlot <;> simp [eq_comm]

/-- A header selects a row when it has the row's number, nothing in the reserved bits, and in each other field what the
row's own packet has there (30_encoding.md R61 to R65). -/
theorem decodeOpcode_ok_iff_fields (h : BitVec 32) (op : Opcode) :
    decodeOpcode h = .ok op ↔
      op.number = Header.unit h * 16 + Header.func h ∧ op.slotField (Header.slot h) = Header.slot h ∧
      Header.reservedHigh h = false ∧ op.flagB (Header.flagB h) = Header.flagB h ∧
      (op.usesP && Header.flagP h) = Header.flagP h ∧ (op.usesF && Header.flagF h) = Header.flagF h ∧
      Header.reservedLow h = 0 := by
  have hfunc : Header.func h < 16 := by
    rw [Header.func_eq]
    omega
  rw [decodeOpcode_ok_iff, Opcode.ofFields_ok_iff, Opcode.flagB_eq_iff, Opcode.slotField_eq_iff, usedFlag_eq_iff,
    usedFlag_eq_iff]
  tauto

/-! ## Decode and encode -/

/-- The command a row makes is encoded as the row's packet, and names the slot in the row's array. -/
theorem Opcode.encode_of_assemble {op : Opcode} {slot : Nat} {f p b : Bool} {operands : List Int}
    {payloads : List Octets} {i : Instr} (h : op.assemble slot f p b operands payloads = some i) :
    encode i = op.packet slot f p b operands payloads ∧ i.slotRef = op.array.map (·, slot) := by
  cases op with
  | cdNew =>
    simp only [Opcode.assemble] at h
    split at h <;> cases h <;> cases b <;> exact ⟨rfl, rfl⟩
  | _ =>
    simp only [Opcode.assemble] at h
    split at h <;> cases h
    exact ⟨rfl, rfl⟩

/-- Every command is made by a row. -/
theorem Instr.exists_assemble (i : Instr) :
    ∃ (op : Opcode) (slot : Nat) (f p b : Bool),
      op.assemble slot f p b (encode i).operands (encode i).payloads = some i := by
  cases i with
  | maskbits byte i0 i1 => exact ⟨.maskbits, 0, false, false, false, rfl⟩
  | padbits bitString n => exact ⟨.padbits, 0, false, false, false, rfl⟩
  | byte2bits byte n prefixed => exact ⟨.byte2bits, 0, prefixed, false, false, rfl⟩
  | getbit bytes i => exact ⟨.getbit, 0, false, false, false, rfl⟩
  | rdNew slot truncate bytes => exact ⟨.rdNew, slot, truncate, false, false, rfl⟩
  | rdEof slot => exact ⟨.rdEof, slot, false, false, false, rfl⟩
  | rdBits slot n => exact ⟨.rdBits, slot, false, false, false, rfl⟩
  | rdAlign slot force => exact ⟨.rdAlign, slot, force, false, false, rfl⟩
  | rdByte slot => exact ⟨.rdByte, slot, false, false, false, rfl⟩
  | wrNew slot => exact ⟨.wrNew, slot, false, false, false, rfl⟩
  | wrLen slot => exact ⟨.wrLen, slot, false, false, false, rfl⟩
  | wrBits slot bitString => exact ⟨.wrBits, slot, false, false, false, rfl⟩
  | wrByte slot byte => exact ⟨.wrByte, slot, false, false, false, rfl⟩
  | wrPad slot force => exact ⟨.wrPad, slot, force, false, false, rfl⟩
  | wrPop slot n => exact ⟨.wrPop, slot, false, false, false, rfl⟩
  | wrFin slot force => exact ⟨.wrFin, slot, force, false, false, rfl⟩
  | cdNew slot base strict alphabet pad =>
    obtain ⟨b, rfl⟩ : ∃ b, Base.ofFlag b = base := by
      cases base
      · exact ⟨false, rfl⟩
      · exact ⟨true, rfl⟩
    cases pad with
    | none => exact ⟨.cdNew, slot, strict, false, b, rfl⟩
    | some pad => exact ⟨.cdNew, slot, strict, true, b, rfl⟩
  | cdEncraw slot bytes => exact ⟨.cdEncraw, slot, false, false, false, rfl⟩
  | cdEnc slot bytes => exact ⟨.cdEnc, slot, false, false, false, rfl⟩
  | cdDecraw slot encoded => exact ⟨.cdDecraw, slot, false, false, false, rfl⟩
  | cdDec slot encoded => exact ⟨.cdDec, slot, false, false, false, rfl⟩
  | cdValid slot encoded => exact ⟨.cdValid, slot, false, false, false, rfl⟩
  | enc32 bytes => exact ⟨.enc32, 0, false, false, false, rfl⟩
  | dec32 encoded => exact ⟨.dec32, 0, false, false, false, rfl⟩
  | valid32 encoded => exact ⟨.valid32, 0, false, false, false, rfl⟩
  | enc64 bytes => exact ⟨.enc64, 0, false, false, true, rfl⟩
  | dec64 encoded => exact ⟨.dec64, 0, false, false, true, rfl⟩
  | valid64 encoded => exact ⟨.valid64, 0, false, false, true, rfl⟩

/-- A row that works on no array uses no slot number. -/
theorem Opcode.usesSlot_eq (op : Opcode) : op.usesSlot = op.array.isSome := by cases op <;> rfl

theorem Instr.wellFormed_iff {i : Instr} {op : Opcode} {slot : Nat} (h : i.slotRef = op.array.map (·, slot)) :
    i.WellFormed ↔ op.slotField slot < 16 := by
  unfold Instr.WellFormed Instr.wellFormed Opcode.slotField
  rw [h, op.usesSlot_eq]
  cases op.array with
  | none => simp
  | some array => exact decide_eq_true_iff

/-- A row makes its command of the fields it uses alone. -/
theorem Opcode.assemble_usedFields (op : Opcode) (slot : Nat) (f p b : Bool) (operands : List Int)
    (payloads : List Octets) :
    op.assemble (op.slotField slot) (op.usesF && f) (op.usesP && p) (op.flagB b) operands payloads =
      op.assemble slot f p b operands payloads := by
  cases op <;> rfl

/-- The packet of a row decodes to the command the row makes, where the slot number fits its field. -/
theorem Opcode.decode_packet {op : Opcode} {slot : Nat} {f p b : Bool} {operands : List Int} {payloads : List Octets}
    {i : Instr} (hslot : op.slotField slot < 16) (h : op.assemble slot f p b operands payloads = some i) :
    decode (op.packet slot f p b operands payloads) = .ok i := by
  have hb : op.flagB (op.flagB b) = op.flagB b := by cases op <;> rfl
  obtain ⟨hunused, h32, h64⟩ := (op.flagB_eq_iff _).mp hb
  refine decode_encodeHeader hslot (decodeOpcode_encodeHeader op hslot ?_ ?_ hunused h32 h64 ?_)
    ((op.assemble_usedFields slot f p b operands payloads).trans h)
  · intro hf
    rw [hf, Bool.false_and]
  · intro hp
    rw [hp, Bool.false_and]
  · intro hs
    rw [Opcode.slotField, hs, if_neg Bool.false_ne_true]

/-- Settles O1: the packet of a command is the packet of the row that makes it, and that decodes. -/
theorem decodingAnEncodedCommandGivesItBack : Obligations.DecodingAnEncodedCommandGivesItBack := by
  intro i hi
  obtain ⟨op, slot, f, p, b, h⟩ := i.exists_assemble
  obtain ⟨hencode, href⟩ := Opcode.encode_of_assemble h
  rw [hencode]
  exact Opcode.decode_packet ((Instr.wellFormed_iff href).mp hi) h

/-- A packet whose header selects a row is the row's packet of the header's fields. -/
theorem Opcode.packet_of_decodeOpcode {pk : Packet} {op : Opcode} (h : decodeOpcode pk.header = .ok op) :
    op.packet (Header.slot pk.header) (Header.flagF pk.header) (Header.flagP pk.header) (Header.flagB pk.header)
      pk.operands pk.payloads = pk := by
  obtain ⟨-, hslot, -, hb, hp, hf, -⟩ := (decodeOpcode_ok_iff_fields _ _).mp h
  rw [Opcode.packet, hslot, hf, hp, hb, ← eq_encodeHeader_of_decodeOpcode h]

theorem Header.slot_lt (h : BitVec 32) : Header.slot h < 16 := by
  rw [Header.slot_eq]
  omega

/-- Settles O2: a decoded command is made by the row its packet's header selects, so its packet is the row's. -/
theorem decodedPacketIsTheEncodingOfItsCommand : Obligations.DecodedPacketIsTheEncodingOfItsCommand := by
  intro pk i h
  obtain ⟨op, hop, hassemble⟩ := (decode_ok_iff pk i).mp h
  obtain ⟨hencode, href⟩ := Opcode.encode_of_assemble hassemble
  obtain ⟨-, hslot, -⟩ := (decodeOpcode_ok_iff_fields _ _).mp hop
  refine ⟨(Instr.wellFormed_iff href).mpr ?_, hencode.trans (Opcode.packet_of_decodeOpcode hop)⟩
  rw [hslot]
  exact Header.slot_lt pk.header

/-! ## The opcode table (30_encoding.md R80) -/

theorem extractLsb'_one (h : BitVec 32) (i : Nat) : h.extractLsb' i 1 = BitVec.ofBool (h.getLsbD i) := by
  ext j hj
  obtain rfl : j = 0 := by omega
  simp

/-- One bit under the mask of a flag: free where the row uses the flag, else 0. -/
theorem maskedFlag_iff (used bit : Bool) :
    BitVec.ofBool bit &&& (if used then 0#1 else BitVec.allOnes 1) = 0#1 ↔ (used && bit) = bit := by
  cases used <;> cases bit <;> decide

theorem maskedFlagB_iff (op : Opcode) (bit : Bool) :
    BitVec.ofBool bit &&& (if op = .cdNew then 0#1 else BitVec.allOnes 1) =
      BitVec.ofBool (op ∈ [.enc64, .dec64, .valid64]) ↔ op.flagB bit = bit := by
  cases bit <;> cases op <;> decide

theorem maskedSlot_iff (op : Opcode) (h : BitVec 32) :
    h.extractLsb' 20 4 &&& (if op.usesSlot then 0#4 else BitVec.allOnes 4) = 0#4 ↔
      op.slotField (Header.slot h) = Header.slot h := by
  have hzero : h.extractLsb' 20 4 = 0#4 ↔ Header.slot h = 0 := BitVec.toNat_inj.symm
  rw [Opcode.slotField_eq_iff, ← hzero]
  cases op.usesSlot with
  | true => simp
  | false =>
    rw [if_neg Bool.false_ne_true, BitVec.and_allOnes]
    simp

theorem opcodeField_iff (op : Opcode) (h : BitVec 32) :
    h.extractLsb' 24 8 = BitVec.ofNat 8 op.number ↔ op.number = Header.unit h * 16 + Header.func h := by
  have hnumber := op.number_lt
  have hlt := h.isLt
  rw [Header.unit_eq, Header.func_eq, BitVec.toNat_eq, BitVec.extractLsb'_toNat, BitVec.toNat_ofNat,
    Nat.shiftRight_eq_div_pow]
  omega

theorem reservedLow_iff (h : BitVec 32) : h.extractLsb' 0 16 = 0#16 ↔ Header.reservedLow h = 0 :=
  BitVec.toNat_inj.symm

/-- A row of the table selects the headers that select its opcode. -/
theorem selects_iff_decodeOpcode {row : Row} (hrow : row ∈ opcodeTable) (h : BitVec 32) :
    row.selects h = true ↔ decodeOpcode h = .ok row.opcode := by
  obtain ⟨⟨hm24, hp24⟩, ⟨hm20, hp20⟩, ⟨hm19, hp19⟩, ⟨hm18, hp18⟩, ⟨hm17, hp17⟩, ⟨hm16, hp16⟩, hm0, hp0⟩ :=
    opcodeTable_fields row hrow
  have hreserved : BitVec.ofBool (h.getLsbD 19) = 0#1 ↔ Header.reservedHigh h = false := by
    unfold Header.reservedHigh
    cases h.getLsbD 19 <;> decide
  rw [Row.selects_iff, hm24, hp24, hm20, hp20, hm19, hp19, hm18, hp18, hm17, hp17, hm16, hp16, hm0, hp0,
    decodeOpcode_ok_iff_fields, BitVec.and_allOnes, BitVec.and_allOnes, BitVec.and_allOnes, opcodeField_iff,
    maskedSlot_iff, reservedLow_iff, extractLsb'_one, extractLsb'_one, extractLsb'_one, extractLsb'_one, hreserved,
    maskedFlagB_iff, maskedFlag_iff, maskedFlag_iff]
  rfl

/-- Every opcode has its row. -/
theorem exists_row (op : Opcode) : ∃ row ∈ opcodeTable, row.opcode = op := by
  cases op <;> decide

/-- No opcode has two rows. -/
theorem row_eq_of_opcode_eq : ∀ row₁ ∈ opcodeTable, ∀ row₂ ∈ opcodeTable, row₁.opcode = row₂.opcode → row₁ = row₂ :=
  fun _ h₁ _ h₂ => List.inj_on_of_nodup_map (f := Row.opcode) (by decide) h₁ h₂

/-- Settles O3: all but the masks is `selects_iff_decodeOpcode`, and the masks are checked row by row. -/
theorem opcodeTableAgreesWithTheHeaderFields : Obligations.OpcodeTableAgreesWithTheHeaderFields := by
  refine ⟨fun h row hrow => selects_iff_decodeOpcode hrow h, fun h op hop => ?_,
    fun h row₁ hrow₁ row₂ hrow₂ h₁ h₂ => ?_, by decide⟩
  · obtain ⟨row, hrow, rfl⟩ := exists_row op
    exact ⟨row, hrow, rfl, (selects_iff_decodeOpcode hrow h).mpr hop⟩
  · rw [selects_iff_decodeOpcode hrow₁] at h₁
    rw [selects_iff_decodeOpcode hrow₂] at h₂
    exact row_eq_of_opcode_eq row₁ hrow₁ row₂ hrow₂ (Except.ok.inj (h₁.symm.trans h₂))

end Sys2Proof

namespace Sys2Proof.Machine

/-! ## A slot the machine lacks -/

/-- No command lists `IllegalCommand` among its own errors (60_exceptions.md R202). -/
theorem illegalCommand_not_mem_ownErrors (i : Instr) : ErrorKind.illegalCommand ∉ ownErrors i := by
  cases i with
  | rdAlign k force => cases force <;> simp [ownErrors]
  | _ => simp [ownErrors]

theorem exec_of_slotMissing {i : Instr} {s : State} {array : SlotArray} {k : Nat}
    (href : i.slotRef = some (array, k)) (h : s.SlotMissing array k) : exec i s = s.raise .illegalCommand := by
  cases i <;> cases href
  case rdNew | wrNew | cdNew => exact State.withSlot_missing h
  case rdEof | rdBits | rdAlign | rdByte => exact State.withReader_missing h
  case wrLen | wrBits | wrByte | wrPad | wrPop | wrFin => exact State.withWriter_missing h
  case cdEncraw | cdEnc | cdDecraw | cdDec | cdValid => exact State.withCodec_missing h

theorem slotMissing_of_illegalCommand {i : Instr} {s t : State} (h : exec i s = .next t)
    (hresponse : t.response = some (.error .illegalCommand)) :
    ∃ array k, i.slotRef = some (array, k) ∧ s.SlotMissing array k := by
  have heffect : Effect i s (.next t) := h ▸ exec_effect s i
  cases heffect with
  | raised cause =>
    cases hresponse
    cases cause with
    | own hown => exact absurd hown (illegalCommand_not_mem_ownErrors i)
    | missing href hmissing => exact ⟨_, _, href, hmissing⟩
  | _ => cases hresponse

/-- Settles O17: the slot is looked up before anything else, and no command raises `IllegalCommand` of its own. -/
theorem missingSlotIsAnsweredIllegalCommand : Obligations.MissingSlotIsAnsweredIllegalCommand :=
  ⟨fun _ _ _ _ => exec_of_slotMissing, fun _ _ _ => slotMissing_of_illegalCommand⟩

/-! ## One step -/

section
variable {s : State} {pk : Packet} {rest : List Packet} (hs : s.commands = pk :: rest)
include hs

theorem step_of_decode_ok {i : Instr} (h : decode pk = .ok i) : step s = exec i { s with commands := rest } := by
  simp only [step, State.takeCommand, hs, h]

theorem step_of_decode_error {cause : Illegal} (h : decode pk = .error cause) :
    step s = .next { s with commands := rest, response := some (.error .illegalCommand) } := by
  simp only [step, State.takeCommand, hs, h, State.illegal, State.raise]

end

/-- Settles O5: taking the packet and decoding it leave `exec`. -/
theorem stepExecutesTheDecodedCommand : Obligations.StepExecutesTheDecodedCommand :=
  fun _ _ _ _ hs h => step_of_decode_ok hs h

/-! ## Illegal packets (30_encoding.md R72) -/

/-- The slot count a packet's unit selects is that of the array its row works on. -/
theorem packetIllegal_slot_iff (s : State) {op : Opcode} {array : SlotArray} (h : op.array = some array) (k : Nat) :
    (match op.number / 16 with | 1 => s.rd.length | 2 => s.wr.length | _ => s.cd.length) ≤ k ↔
      s.SlotMissing array k := by
  cases op <;> cases h <;> rfl

/-- Where the header selects a row, the packet is illegal by a count or by its slot. -/
theorem packetIllegal_iff_of_row (s : State) {pk : Packet} {op : Opcode} (hop : decodeOpcode pk.header = .ok op) :
    PacketIllegal s pk ↔
      ¬ (pk.operands.length = op.operandCount ∧ pk.payloads.length = op.payloadCount (Header.flagP pk.header)) ∨
      ∃ array, op.array = some array ∧ s.SlotMissing array (Header.slot pk.header) := by
  have hunit : (pk.header >>> 28).toNat = op.number / 16 := by
    obtain ⟨hnumber, -⟩ := (decodeOpcode_ok_iff_fields _ _).mp hop
    rw [hnumber, Header.unit_eq, Header.func_eq, BitVec.toNat_ushiftRight, Nat.shiftRight_eq_div_pow]
    omega
  have hslot : (pk.header >>> 20).toNat % 16 = Header.slot pk.header := by
    rw [Header.slot_eq, BitVec.toNat_ushiftRight, Nat.shiftRight_eq_div_pow]
  unfold PacketIllegal
  rw [hunit, hslot]
  constructor
  · rintro (hnone | ⟨row, hrow, hselects, hbad⟩)
    · obtain ⟨row, hrow, rfl⟩ := exists_row op
      exact absurd ((selects_iff_decodeOpcode hrow _).mpr hop) (Bool.eq_false_iff.mp (hnone row hrow))
    · obtain rfl : row.opcode = op :=
        Except.ok.inj (((selects_iff_decodeOpcode hrow _).mp hselects).symm.trans hop)
      rcases hbad with hoperands | hpayloads | ⟨huses, hcount⟩
      · exact .inl fun hcounts => hoperands hcounts.1
      · exact .inl fun hcounts => hpayloads hcounts.2
      · obtain ⟨array, harray⟩ := Option.isSome_iff_exists.mp (row.opcode.usesSlot_eq ▸ huses)
        exact .inr ⟨array, harray, (packetIllegal_slot_iff s harray _).mp hcount⟩
  · intro hbad
    obtain ⟨row, hrow, rfl⟩ := exists_row op
    refine .inr ⟨row, hrow, (selects_iff_decodeOpcode hrow _).mpr hop, ?_⟩
    rcases hbad with hcounts | ⟨array, harray, hmissing⟩
    · exact (not_and_or.mp hcounts).imp_right .inl
    · have huses : row.opcode.usesSlot = true := by rw [Opcode.usesSlot_eq, harray, Option.isSome_some]
      exact .inr (.inr ⟨huses, (packetIllegal_slot_iff s harray _).mpr hmissing⟩)

/-- A packet is illegal unless it decodes to a command that names no slot the machine lacks (R72). -/
theorem packetIllegal_iff (s : State) (pk : Packet) :
    PacketIllegal s pk ↔
      ∀ i, decode pk = .ok i → ∃ array k, i.slotRef = some (array, k) ∧ s.SlotMissing array k := by
  cases hop : decodeOpcode pk.header with
  | error cause =>
    refine iff_of_true (.inl fun row hrow => Bool.eq_false_iff.mpr fun hselects => ?_) fun i hi => ?_
    · have hok := (selects_iff_decodeOpcode hrow _).mp hselects
      cases hop.symm.trans hok
    · obtain ⟨op, hok, -⟩ := (decode_ok_iff pk i).mp hi
      cases hop.symm.trans hok
  | ok op =>
    have hcounts := op.assemble_isSome_iff (Header.slot pk.header) (Header.flagF pk.header) (Header.flagP pk.header)
      (Header.flagB pk.header) pk.operands pk.payloads
    simp only [packetIllegal_iff_of_row s hop, ← hcounts, decode_ok_iff, hop, Except.ok.injEq, exists_eq_left']
    generalize h : op.assemble _ _ _ _ _ _ = made
    cases made with
    | none => simp
    | some i =>
      obtain ⟨-, href⟩ := Opcode.encode_of_assemble h
      simp [href]

/-- Which slots exist does not lie on the host's side. -/
theorem State.slotMissing_commands {s : State} {commands : List Packet} {array : SlotArray} {k : Nat} :
    ({ s with commands := commands } : State).SlotMissing array k ↔ s.SlotMissing array k := by
  cases array <;> rfl

/-- Settles O4: an illegal packet does not decode, or decodes to a command whose slot is missing; both are answered
`IllegalCommand`, and a command answers so in no other case. -/
theorem illegalPacketIsAnsweredAndChangesNoSlot : Obligations.IllegalPacketIsAnsweredAndChangesNoSlot := by
  intro s pk rest hs
  rw [packetIllegal_iff]
  cases hd : decode pk with
  | error cause => exact ⟨fun _ => step_of_decode_error hs hd, fun hlegal => absurd nofun hlegal⟩
  | ok i =>
    rw [step_of_decode_ok hs hd]
    refine ⟨fun hillegal => ?_, fun hlegal t h hresponse => hlegal ?_⟩
    · obtain ⟨array, k, href, hmissing⟩ := hillegal i rfl
      exact exec_of_slotMissing href (State.slotMissing_commands.mpr hmissing)
    · rintro _ ⟨⟩
      obtain ⟨array, k, href, hmissing⟩ := slotMissing_of_illegalCommand h hresponse
      exact ⟨array, k, href, State.slotMissing_commands.mp hmissing⟩

/-! ## Results (30_encoding.md R63, R68) -/

theorem exec_result_hasKind {i : Instr} {s t : State} {result : Option Result} (h : exec i s = .next t)
    (hresponse : t.response = some (.ok result)) : Result.HasKind result i.resultKind := by
  have heffect : Effect i s (.next t) := h ▸ exec_effect s i
  cases heffect with
  | raised => cases hresponse
  | answered hkind => cases hresponse; exact hkind
  | readerMoved _ _ _ hkind => cases hresponse; exact hkind
  | readerNew hcmd => cases hresponse; subst hcmd; rfl
  | writerSet _ _ hkind => cases hresponse; exact hkind
  | codecNew _ _ _ _ hkind => cases hresponse; exact hkind

/-- One octet a symbol: the octet is no larger than its symbol. -/
theorem symbolOctets_lt {symbols : List Nat} {n : Nat} (h : ∀ v ∈ symbols, v < n) :
    ∀ octet ∈ symbolOctets symbols, octet.toNat < n := by
  simp only [symbolOctets, List.forall_mem_map, BitVec.toNat_ofNat]
  exact fun v hv => (Nat.mod_le _ _).trans_lt (h v hv)

section
variable {s t : State} {slot : Nat} {payload symbols : Octets} {cfg : Codec} (hc : s.cd[slot]? = some (some cfg))
  (hresponse : t.response = some (.ok (some (.octets symbols))))
include hc hresponse

theorem exec_cdEncraw_symbols (h : exec (.cdEncraw slot payload) s = .next t) :
    symbols = symbolOctets (cfg.encodeRaw payload) := by
  change s.withCodec slot _ = _ at h
  rw [State.withCodec_instance hc, State.reply_next_iff] at h
  subst h
  cases hresponse
  rfl

theorem exec_cdDecraw_symbols (h : exec (.cdDecraw slot payload) s = .next t) :
    ∃ raw, cfg.decodeRaw payload = .ok raw ∧ symbols = symbolOctets raw := by
  change s.withCodec slot _ = _ at h
  rw [State.withCodec_instance hc] at h
  cases hraw : cfg.decodeRaw payload with
  | ok raw =>
    rw [hraw] at h
    cases h
    cases hresponse
    exact ⟨raw, rfl, rfl⟩
  | error kind =>
    rw [hraw] at h
    cases h
    cases hresponse

end

/-- Settles O21: the kind is read off the command's effect, the bound off the raw symbols. -/
theorem resultIsOfTheCommandsKind : Obligations.ResultIsOfTheCommandsKind := by
  refine ⟨fun i s t result => exec_result_hasKind, fun slot payload symbols cfg s t hc hcfg h hresponse => ?_⟩
  rcases h with h | h
  · rw [exec_cdEncraw_symbols hc hresponse h]
    exact symbolOctets_lt (cfg.encodeRaw_lt payload)
  · obtain ⟨raw, hraw, rfl⟩ := exec_cdDecraw_symbols hc hresponse h
    exact symbolOctets_lt ((Codec.decodeRaw_sound hraw).symbol_lt hcfg)

/-! ## The assembler -/

/-- Settles O56: every line names one mnemonic and is evaluated, its slot, operands and payloads open. -/
theorem assemblerFillsInDefaultsAndExpandsPseudoInstructions :
    Obligations.AssemblerFillsInDefaultsAndExpandsPseudoInstructions := by
  refine ⟨fun slot b byte n base strict prefixed pad => ?_, ?_⟩
  · exact ⟨rfl, rfl, rfl, rfl, rfl, rfl, rfl, rfl, rfl, rfl, rfl, rfl, rfl, rfl⟩
  · decide

end Sys2Proof.Machine
end

