-- ==== Sys2Proof/Proofs/BitOps.lean ====
section
/-! The BitOps unit (40_bitops.md). Each command answers what one function of its operands computes
(`State.answer`), so each statement is the function's law: what it returns, and when it fails. -/

namespace Sys2Proof.Machine

/-! ## Answering what a function computes -/

/-- The response of a command that only computes: the value as a result, or the error it failed with. -/
def State.answer {α : Type} (s : State) (result : α → Result) : Except ErrorKind α → StepOutcome
  | .ok a => s.reply (some (result a))
  | .error kind => s.raise kind

section
variable {α : Type} (s : State) (result : α → Result)

@[simp] theorem State.answer_ok (a : α) :
    s.answer result (.ok a) = .next { s with response := some (.ok (some (result a))) } := rfl

@[simp] theorem State.answer_error (kind : ErrorKind) :
    s.answer result (.error kind) = .next { s with response := some (.error kind) } := rfl

theorem exec_maskbits (byte i0 i1 : Int) :
    exec (.maskbits byte i0 i1) s = s.answer .value (maskBits byte i0 i1) := by
  change execMaskbits byte i0 i1 s = _
  rw [execMaskbits]
  cases maskBits byte i0 i1 <;> rfl

theorem exec_padbits (bitString : Octets) (n : Int) :
    exec (.padbits bitString n) s = s.answer .octets (padBits .padToN bitString n) := by
  change execPadbits bitString n s = _
  rw [execPadbits, Parameters.padBitsEmpty]
  cases padBits .padToN bitString n <;> rfl

theorem exec_byte2bits (byte n : Int) (prefixed : Bool) :
    exec (.byte2bits byte n prefixed) s = s.answer .octets (byteToBits byte n prefixed) := by
  change execByte2bits byte n prefixed s = _
  rw [execByte2bits]
  cases byteToBits byte n prefixed <;> rfl

theorem exec_getbit (bytes : Octets) (i : Int) :
    exec (.getbit bytes i) s = s.answer Result.ofBool (getBit bytes i) := by
  change execGetbit bytes i s = _
  rw [execGetbit]
  cases getBit bytes i <;> rfl

end

theorem isByteOperand_eq_false_iff {n : Int} : isByteOperand n = false ↔ ¬ (0 ≤ n ∧ n ≤ 255) := by
  rw [Bool.eq_false_iff, Ne, isByteOperand_iff]

/-! ## MASKBITS (40_bitops.md R100) -/

theorem slice_toBits {v m a n : Nat} (h : a + n ≤ m) :
    slice (toBits v m) a n = toBits (v / 2 ^ (m - (a + n))) n := by
  rw [slice, toBits_drop, toBits_take _ _ _ (by omega), Nat.sub_sub]

/-- A slice of a value's bits writes the value, shifted right past the bits after the slice and cut to its length. -/
theorem toNat_slice_toBits {v m a n : Nat} (h : a + n ≤ m) :
    toNat (slice (toBits v m) a n) = v / 2 ^ (m - (a + n)) % 2 ^ n := by
  rw [slice_toBits h, toNat_toBits_mod]

theorem maskBits_ok {byte i0 i1 : Int} (hbyte : 0 ≤ byte ∧ byte ≤ 255) (hrange : 0 ≤ i0 ∧ i0 < i1 ∧ i1 ≤ 8) :
    maskBits byte i0 i1 = .ok (toNat (slice (toBits byte.toNat 8) i0.toNat (i1.toNat - i0.toNat))) := by
  have hend : i0.toNat + (i1.toNat - i0.toNat) = i1.toNat := by omega
  rw [maskBits, if_neg (by simp [isByteOperand_iff.mpr hbyte]), if_neg (not_not.mpr hrange),
    toNat_slice_toBits (by omega), hend, Nat.shiftRight_eq_div_pow, Nat.one_shiftLeft,
    Nat.and_two_pow_sub_one_eq_mod]

theorem maskBits_error {byte i0 i1 : Int} (h : ¬ ((0 ≤ byte ∧ byte ≤ 255) ∧ 0 ≤ i0 ∧ i0 < i1 ∧ i1 ≤ 8)) :
    maskBits byte i0 i1 = .error .invalidArgument := by
  by_cases hbyte : 0 ≤ byte ∧ byte ≤ 255
  · rw [maskBits, if_neg (by simp [isByteOperand_iff.mpr hbyte]), if_pos fun hrange => h ⟨hbyte, hrange⟩]
  · rw [maskBits, if_pos (isByteOperand_eq_false_iff.mpr hbyte)]

/-- Settles O24: the shift and mask of `maskBits` are the number its slice of the byte's stream writes. -/
theorem maskbitsReturnsTheSliceOfTheByte : Obligations.MaskbitsReturnsTheSliceOfTheByte := by
  intro byte i0 i1 s
  refine ⟨fun h0 h255 hi0 hlt hi1 => ?_, fun h => ?_⟩
  · have hend : i0.toNat + (i1.toNat - i0.toNat) = i1.toNat := by omega
    have hvalue := toNat_slice_toBits (v := byte.toNat) (m := 8) (a := i0.toNat) (n := i1.toNat - i0.toNat) (by omega)
    rw [hend] at hvalue
    refine ⟨_, ?_, hvalue, rfl, hvalue ▸ Nat.mod_lt _ (by positivity)⟩
    rw [exec_maskbits, maskBits_ok ⟨h0, h255⟩ ⟨hi0, hlt, hi1⟩, State.answer_ok]
  · rw [exec_maskbits, maskBits_error (by rwa [and_assoc]), State.answer_error]

/-! ## PADBITS (40_bitops.md R101) -/

/-- How many zeros `padBits` puts before a string of `size` characters. -/
def paddingTo (n size : Nat) : Nat := if 0 < size ∧ size % n = 0 then 0 else n - size % n

/-- The padding reaches a positive multiple of `n`, and nothing shorter does: fewer than `n - size % n` zeros leave a
remainder. -/
theorem paddingTo_isLeast {n : Nat} (hn : 0 < n) (size : Nat) :
    IsLeast {q | 0 < q + size ∧ n ∣ q + size} (paddingTo n size) := by
  have hdiv := Nat.div_add_mod size n
  have hmod := Nat.mod_lt size hn
  unfold paddingTo
  split
  next h => exact ⟨⟨by omega, by simpa using Nat.dvd_of_mod_eq_zero h.2⟩, fun p _ => Nat.zero_le p⟩
  next h =>
    refine ⟨⟨by omega, size / n + 1, by rw [Nat.mul_succ]; omega⟩, fun p ⟨hpos, hdvd⟩ => ?_⟩
    by_contra hlt
    have hrem : (p + size) % n = p + size % n := by
      rw [Nat.add_mod, Nat.mod_eq_of_lt (by omega : p < n), Nat.mod_eq_of_lt (by omega)]
    have := Nat.mod_eq_zero_of_dvd hdvd
    omega

theorem padBits_ok (bitString : Octets) {n : Int} (hn : 0 < n) :
    padBits .padToN bitString n = .ok (List.replicate (paddingTo n.toNat bitString.length) 0x30#8 ++ bitString) := by
  unfold padBits paddingTo
  rw [if_neg (by omega)]
  dsimp only
  split
  next h => simp
  next h =>
    split
    next hempty => simp [List.length_eq_zero_iff.mp hempty, zeroChars]
    next hempty =>
      have hdiv := Nat.div_add_mod bitString.length n.toNat
      have hmul : (bitString.length / n.toNat + 1) * n.toNat = n.toNat * (bitString.length / n.toNat) + n.toNat := by
        ring
      rw [zeroChars, show (bitString.length / n.toNat + 1) * n.toNat - bitString.length
        = n.toNat - bitString.length % n.toNat by omega]

theorem padBits_error (empty : Config.PadBitsEmpty) (bitString : Octets) {n : Int} (hn : n ≤ 0) :
    padBits empty bitString n = .error .invalidArgument := by
  unfold padBits
  rw [if_pos hn]

/-- Settles O25: the zeros are `paddingTo`, the least number that reaches a positive multiple. -/
theorem padbitsPadsToTheLeastPositiveMultiple : Obligations.PadbitsPadsToTheLeastPositiveMultiple := by
  intro bitString n s
  refine ⟨fun hn => ?_, fun hn => ?_⟩
  · obtain ⟨⟨hpos, hdvd⟩, hleast⟩ := paddingTo_isLeast (n := n.toNat) (by omega) bitString.length
    refine ⟨_, ?_, hpos, hdvd, fun p hp hpdvd => hleast ⟨hp, hpdvd⟩⟩
    rw [exec_padbits, padBits_ok bitString hn, State.answer_ok]
  · rw [exec_padbits, padBits_error _ _ hn, State.answer_error]

/-! ## BYTE2BITS (40_bitops.md R102) -/

/-- `n` digits are enough exactly where there is a digit and they hold the byte. -/
theorem bitsNeeded_le_iff {byte n : Nat} : bitsNeeded byte ≤ n ↔ 1 ≤ n ∧ byte < 2 ^ n := by
  unfold bitsNeeded
  split
  next hzero => simp [hzero]
  next hpos =>
    rw [Nat.succ_le_iff, Nat.log2_lt hpos]
    refine ⟨fun h => ⟨?_, h⟩, And.right⟩
    by_contra hn
    obtain rfl : n = 0 := by omega
    omega

theorem byteToBits_ok {byte n : Int} (hbyte : 0 ≤ byte ∧ byte ≤ 255) (hn : 1 ≤ n) (hfits : byte.toNat < 2 ^ n.toNat)
    (prefixed : Bool) :
    byteToBits byte n prefixed = .ok (if prefixed then 0x30#8 :: 0x62#8 :: str (toBits byte.toNat n.toNat)
      else str (toBits byte.toNat n.toNat)) := by
  have hneeded : bitsNeeded byte.toNat ≤ n.toNat := bitsNeeded_le_iff.mpr ⟨by omega, hfits⟩
  rw [byteToBits, if_neg (by simp [isByteOperand_iff.mpr hbyte]), if_neg (by omega)]
  rfl

theorem byteToBits_error {byte n : Int} (h : ¬ ((0 ≤ byte ∧ byte ≤ 255) ∧ 1 ≤ n ∧ byte.toNat < 2 ^ n.toNat))
    (prefixed : Bool) : byteToBits byte n prefixed = .error .invalidArgument := by
  by_cases hbyte : 0 ≤ byte ∧ byte ≤ 255
  · have hneeded : ¬ (1 ≤ n ∧ bitsNeeded byte.toNat ≤ n.toNat) := fun ⟨hn, hle⟩ =>
      h ⟨hbyte, hn, (bitsNeeded_le_iff.mp hle).2⟩
    have hone : 1 ≤ bitsNeeded byte.toNat := (bitsNeeded_le_iff.mp (Nat.le_refl _)).1
    rw [byteToBits, if_neg (by simp [isByteOperand_iff.mpr hbyte]), if_pos (by omega)]
  · rw [byteToBits, if_pos (isByteOperand_eq_false_iff.mpr hbyte)]

/-- Settles O26: the digits are `toBits` of the byte, and they hold it exactly where `bitsNeeded` is at most `n`. -/
theorem byte2bitsWritesTheNumeral : Obligations.Byte2bitsWritesTheNumeral := by
  intro byte n prefixed s
  rw [exec_byte2bits]
  refine ⟨fun h0 h255 hn hlt => ?_, fun h => ?_⟩
  · lift byte to Nat using h0
    have hfits : byte < 2 ^ n.toNat := by exact_mod_cast hlt
    refine ⟨toBits byte n.toNat, ?_, toBits_length _ _, by rw [toNat_toBits hfits]⟩
    rw [byteToBits_ok ⟨by omega, h255⟩ hn hfits, State.answer_ok]
    rfl
  · rw [byteToBits_error, State.answer_error]
    rintro ⟨⟨h0, h255⟩, hn, hfits⟩
    lift byte to Nat using h0
    have hlt : (byte : Int) < 2 ^ n.toNat := by exact_mod_cast hfits
    omega

/-! ## GETBIT (40_bitops.md R103) -/

theorem getBit_ok {bytes : Octets} {k : Nat} (h : k < 8 * bytes.length) :
    getBit bytes k = .ok (lsbBit bytes k) := by
  rw [getBit, if_neg (by simp; omega), Int.toNat_natCast]

theorem getBit_error {bytes : Octets} {i : Int} (h : i < 0 ∨ (8 * bytes.length : Int) ≤ i) :
    getBit bytes i = .error .invalidArgument := by
  rw [getBit, if_pos (by omega)]

/-- The two numberings meet: they name a byte's bits from its two ends (20_memory.md R41, R43). -/
theorem streamBit_eq_lsbBit (buf : Octets) (k : Nat) : streamBit buf (8 * (k / 8) + 7 - k % 8) = lsbBit buf k := by
  have hbyte : (8 * (k / 8) + 7 - k % 8) / 8 = k / 8 := by omega
  have hbit : 7 - (8 * (k / 8) + 7 - k % 8) % 8 = k % 8 := by omega
  rw [streamBit, lsbBit, hbyte, hbit]

theorem lsbBit_toNat {buf : Octets} {k : Nat} {byte : Byte} (h : buf[k / 8]? = some byte) :
    (lsbBit buf k).toNat = byte.toNat / 2 ^ (k % 8) % 2 := by
  rw [lsbBit, List.getD_eq_getElem?_getD, h, Option.getD_some, ← BitVec.testBit_toNat, Nat.toNat_testBit]

/-- Settles O27: the bit is `lsbBit`, read as a bit of its byte and as a bit of the stream. -/
theorem getbitNumbersFromTheLeastSignificantBit : Obligations.GetbitNumbersFromTheLeastSignificantBit := by
  intro bytes i s
  refine ⟨?_, fun h => ?_⟩
  · rintro k rfl hk
    refine ⟨lsbBit bytes k, ?_, fun byte => lsbBit_toNat, ?_⟩
    · rw [exec_getbit, getBit_ok hk, State.answer_ok]
      rfl
    · rw [streamOf_getElem? _ _ (by omega), streamBit_eq_lsbBit]
  · rw [exec_getbit, getBit_error h, State.answer_error]

/-! ## A read inside a byte (40_bitops.md R104) -/

theorem slice_slice (w : Bits) (p : Nat) {m a n : Nat} (h : a + n ≤ m) :
    slice (slice w p m) a n = slice w (p + a) n := by
  rw [slice, slice, slice, List.drop_take, List.drop_drop, List.take_take, Nat.min_eq_left (by omega)]

/-- A slice of the stream that lies inside one byte is a slice of that byte's bits. -/
theorem slice_streamOf_inside {buf : Octets} {p n : Nat} {byte : Byte} (hbyte : buf[p / 8]? = some byte)
    (h : p % 8 + n ≤ 8) : slice (streamOf buf) p n = slice (toBits byte.toNat 8) (p % 8) n := by
  rw [← slice_streamOf_byte buf (p / 8) byte hbyte, slice_slice _ _ h, Nat.div_add_mod]

/-- A read with all its bits left returns the number they write, in either mode (41_bitreader.md R122). -/
theorem exec_rdBits_complete {s : State} {k n : Nat} {r : Reader} (hr : s.rd[k]? = some (some r)) (h1 : 1 ≤ n)
    (h8 : n ≤ 8) (hinside : r.bitPosition + n ≤ 8 * r.buffer.length) :
    exec (.rdBits k n) s = (s.setReader k { r with bitPosition := r.bitPosition + n }).reply
      (some (.value (toNat (slice (streamOf r.buffer) r.bitPosition n)))) := by
  have hread := r.readBits_ok (n := n) (m := n) (by omega) (by omega) (by omega) (by omega) rfl
  simp only [Int.toNat_natCast, Nat.sub_self, pow_zero, mul_one, ite_self] at hread
  change s.withReader k _ = _
  rw [State.withReader_instance hr, hread]

/-- Settles O28: both commands answer the number one slice of the byte's bits writes. -/
theorem readInsideAByteIsMaskbits : Obligations.ReadInsideAByteIsMaskbits := by
  intro s k n r byte hr h1 hinside hbyte
  have hlt : r.bitPosition / 8 < r.buffer.length := lt_of_getElem?_some hbyte
  have hmask := maskBits_ok (byte := byte.toNat) (i0 := (r.bitPosition % 8 : Nat))
    (i1 := (r.bitPosition % 8 + n : Nat)) (by omega) (by omega)
  simp only [Int.toNat_natCast, Nat.add_sub_cancel_left, ← slice_streamOf_inside hbyte hinside] at hmask
  exact ⟨_, _, exec_rdBits_complete hr h1 (by omega) (by omega),
    (exec_maskbits s _ _ _).trans (congrArg (s.answer .value) hmask), rfl⟩

end Sys2Proof.Machine
end

