-- ==== Sys2Proof/Proofs/BitReader.lean ====
section
/-! The BitReader unit (41_bitreader.md). A read command does what `readBits` computes of its reader
(`State.answerRead`), so a statement about reads is a law of `readBits`; the bound on every command's move is read off
`exec_effect`. -/

namespace Sys2Proof.Machine

/-! ## What each command does to the reader in its slot -/

/-- The outcome of a command that reads: the value answered and the reader after it stored, or the error. -/
def State.answerRead (s : State) (k : Nat) : Except ErrorKind (Nat × Reader) → StepOutcome
  | .ok (v, after) => (s.setReader k after).reply (some (.value v))
  | .error kind => s.raise kind

@[simp] theorem State.answerRead_ok (s : State) (k v : Nat) (after : Reader) :
    s.answerRead k (.ok (v, after)) =
      .next { s with rd := s.rd.set k (some after), response := some (.ok (some (.value v))) } := rfl

@[simp] theorem State.answerRead_error (s : State) (k : Nat) (kind : ErrorKind) :
    s.answerRead k (.error kind) = .next { s with response := some (.error kind) } := rfl

section
variable {s : State} {k : Nat} {r : Reader} (hr : s.rd[k]? = some (some r))
include hr

theorem exec_rdEof : exec (.rdEof k) s = .next { s with response := some (.ok (some (.value r.eof.toNat))) } :=
  State.withReader_instance hr

theorem exec_rdBits (n : Int) : exec (.rdBits k n) s = s.answerRead k (r.readBits n) := by
  change s.withReader k _ = _
  rw [State.withReader_instance hr]
  cases r.readBits n <;> rfl

theorem exec_rdAlign_of_ok {force : Bool} {after : Reader} (h : r.moveToByteBoundary force = .ok after) :
    exec (.rdAlign k force) s = .next { s with rd := s.rd.set k (some after), response := some (.ok none) } := by
  change s.withReader k _ = _
  rw [State.withReader_instance hr, h]
  rfl

theorem exec_rdAlign_of_error {force : Bool} {kind : ErrorKind} (h : r.moveToByteBoundary force = .error kind) :
    exec (.rdAlign k force) s = .next { s with response := some (.error kind) } := by
  change s.withReader k _ = _
  rw [State.withReader_instance hr, h]
  rfl

end

theorem exec_rdByte (s : State) (k : Nat) : exec (.rdByte k) s = exec (.rdBits k 8) s := rfl

/-! ## RD.NEW and RD.EOF (41_bitreader.md R120, R121) -/

/-- Settles O29: the slot exists, so the fresh reader or writer is stored there. -/
theorem newReaderAndWriterFillTheirSlot : Obligations.NewReaderAndWriterFillTheirSlot :=
  ⟨fun _ _ _ _ => State.withSlot_present, fun _ _ => State.withSlot_present⟩

/-- Settles O30: the answer is `Reader.eof`. -/
theorem rdEofTellsWhetherNoBitRemains : Obligations.RdEofTellsWhetherNoBitRemains :=
  fun _ _ r hr => ⟨r.eof, exec_rdEof hr, r.eof_iff, Reader.eof_iff_atEnd⟩

/-! ## RD.BITS (41_bitreader.md R122, R123) -/

/-- Settles O31: the three laws of `readBits`, one for each clause. -/
theorem rdBitsReadsTheStream : Obligations.RdBitsReadsTheStream := by
  intro s k n r hr _
  rw [exec_rdBits hr]
  refine ⟨fun hn => ?_, fun h1 h8 hend => ?_, fun h1 h8 hp => ⟨_, _, rfl, rfl, ?_⟩⟩
  · rw [r.readBits_badCount hn, State.answerRead_error]
  · rw [r.readBits_atEnd h1 h8 hend.ge, State.answerRead_error]
  · rw [r.readBits_ok h1 h8 hp rfl rfl, State.answerRead_ok]

theorem toNat_slice_lt (w : Bits) (p m : Nat) : toNat (slice w p m) < 2 ^ m :=
  (toNat_lt _).trans_le (Nat.pow_le_pow_right Nat.two_pos (by simp))

/-- `m` bits that fill the high end of `n` stay below `2^n`. -/
theorem mul_two_pow_sub_lt {v m n : Nat} (hv : v < 2 ^ m) (hmn : m ≤ n) : v * 2 ^ (n - m) < 2 ^ n :=
  calc v * 2 ^ (n - m) < 2 ^ m * 2 ^ (n - m) := Nat.mul_lt_mul_of_pos_right hv (Nat.two_pow_pos _)
    _ = 2 ^ n := by rw [← pow_add, Nat.add_sub_cancel' hmn]

/-- Settles O32: an OK answer is a read of `m` bits, whose number is below `2^m`. -/
theorem rdBitsResultIsBounded : Obligations.RdBitsResultIsBounded := by
  intro s t k n r v hr _ h hresponse
  rw [exec_rdBits hr] at h
  rcases r.readBits_cases n with ⟨kind, hread, -⟩ | ⟨value, m, hread, h1, h8, hp, hm, hvalue⟩
  · rw [hread] at h
    cases h
    cases hresponse
  · rw [hread] at h
    cases h
    cases hresponse
    have hlt := toNat_slice_lt (streamOf r.buffer) r.bitPosition m
    have hinside : r.bitPosition + m ≤ 8 * r.buffer.length := by omega
    refine ⟨m, _, List.getElem?_set_self (lt_of_getElem?_some hr), rfl, hinside, by omega, by omega, by omega,
      fun htruncate => ?_, fun hfill => ?_⟩
    · rwa [hvalue, if_pos htruncate]
    · rw [hvalue, if_neg (by simp [hfill])]
      exact ⟨mul_two_pow_sub_lt hlt (by omega), Nat.dvd_mul_left _ _⟩

/-- A slice inside the sequence writes its first `a` bits above its last `b` (20_memory.md R45). -/
theorem toNat_slice_add {w : Bits} {p a b : Nat} (h : p + a + b ≤ w.length) :
    toNat (slice w p (a + b)) = toNat (slice w p a) * 2 ^ b + toNat (slice w (p + a) b) := by
  rw [slice_split, toNat_append, slice_length, Nat.min_eq_left (by omega)]

/-- Settles O33: three complete reads, whose slices are `a + b` bits and their two parts. -/
theorem twoCompleteReadsCompose : Obligations.TwoCompleteReadsCompose := by
  intro s k a b r hr ha hb hab hinside
  have hvalue := toNat_slice_add (w := streamOf r.buffer) (by rwa [streamOf_length])
  refine ⟨_, _, _, _, _, exec_rdBits_complete hr ha (by omega) (by omega), rfl,
    exec_rdBits_complete (List.getElem?_set_self (lt_of_getElem?_some hr)) hb (by omega) hinside, rfl,
    exec_rdBits_complete hr (by omega) hab (by omega), ?_, ?_⟩
  · rw [hvalue]
  · simp [Nat.add_assoc]

/-! ## RD.ALIGN (41_bitreader.md R124) -/

section
variable {r : Reader}

/-- A legal reader that is not aligned has the rest of its byte left: its buffer ends at a byte boundary. -/
theorem Reader.moveToByteBoundary_unaligned (hr : r.Inv) (h : r.bitPosition % 8 ≠ 0) (force : Bool) :
    r.moveToByteBoundary force = .ok { r with bitPosition := r.bitPosition + 8 - r.bitPosition % 8 } := by
  unfold Reader.Inv at hr
  rcases r.moveToByteBoundary_cases force with ⟨-, hend, -⟩ | ⟨-, haligned, -⟩ | ⟨m, hmove, -, -, -, hm, -⟩
  · omega
  · exact absurd haligned h
  · rw [hmove, show r.bitPosition + m = r.bitPosition + 8 - r.bitPosition % 8 by omega]

theorem Reader.moveToByteBoundary_aligned (h : r.bitPosition % 8 = 0) : r.moveToByteBoundary false = .ok r := by
  simp [Reader.moveToByteBoundary, h]

theorem Reader.moveToByteBoundary_forced (h : r.bitPosition % 8 = 0) (hp : r.bitPosition < 8 * r.buffer.length) :
    r.moveToByteBoundary true = .ok { r with bitPosition := r.bitPosition + 8 } := by
  rcases r.moveToByteBoundary_cases true with ⟨-, hend, -⟩ | ⟨-, -, hforce⟩ | ⟨m, hmove, -, -, -, hm, -⟩
  · omega
  · cases hforce
  · rw [hmove, show m = 8 by omega]

theorem Reader.moveToByteBoundary_forced_atEnd (h : r.bitPosition = 8 * r.buffer.length) :
    r.moveToByteBoundary true = .error .endOfBuffer := by
  rcases r.moveToByteBoundary_cases true with ⟨hmove, -, -⟩ | ⟨-, -, hforce⟩ | ⟨m, -, h1, -, hinside, -, -⟩
  · exact hmove
  · cases hforce
  · omega

end

/-- An aligned position is kept without `force`: what is stored back is what the slot held. -/
theorem exec_rdAlign_aligned {s : State} {k : Nat} {r : Reader} (hr : s.rd[k]? = some (some r))
    (h : r.bitPosition % 8 = 0) :
    exec (.rdAlign k false) s = .next { s with response := some (.ok none) } := by
  have hself : s.rd.set k (some r) = s.rd := congrArg State.rd (State.setReader_self hr)
  rw [exec_rdAlign_of_ok hr (Reader.moveToByteBoundary_aligned h), hself]

/-- Settles O34: the four laws of `moveToByteBoundary`, one for each clause. -/
theorem rdAlignMovesToTheByteBoundary : Obligations.RdAlignMovesToTheByteBoundary := by
  intro s k force r hr hinv
  refine ⟨fun hu => exec_rdAlign_of_ok hr (Reader.moveToByteBoundary_unaligned hinv hu force), ?_, ?_, ?_⟩
  · rintro ha rfl
    exact exec_rdAlign_aligned hr ha
  · rintro ha rfl hp
    exact exec_rdAlign_of_ok hr (Reader.moveToByteBoundary_forced ha hp)
  · rintro - rfl hend
    exact exec_rdAlign_of_error hr (Reader.moveToByteBoundary_forced_atEnd hend)

/-! ## RD.BYTE (41_bitreader.md R125) -/

/-- A read of 8 bits at a byte boundary is complete and its slice is the byte (41_bitreader.md R123 (4)). -/
theorem exec_rdByte_aligned {s : State} {k j : Nat} {r : Reader} {byte : Byte} (hr : s.rd[k]? = some (some r))
    (hj : r.bitPosition = 8 * j) (hbyte : r.buffer[j]? = some byte) :
    exec (.rdByte k) s = .next { s with
      rd := s.rd.set k (some { r with bitPosition := 8 * (j + 1) }),
      response := some (.ok (some (.value byte.toNat))) } := by
  have hlt : j < r.buffer.length := lt_of_getElem?_some hbyte
  have hread := exec_rdBits_complete hr (n := 8) (by omega) (by omega) (by omega)
  rw [hj, slice_streamOf_byte _ _ _ hbyte, toNat_toBits byte.isLt] at hread
  exact hread

/-- Settles O35: both commands read 8 bits; the clauses are O31's read and a read of one whole byte. -/
theorem rdByteIsRdBitsEight : Obligations.RdByteIsRdBitsEight := by
  refine ⟨exec_rdByte, fun s k r hr hp => ⟨_, _, rfl, rfl, ?_⟩, fun s k j r byte => exec_rdByte_aligned⟩
  rw [exec_rdByte, exec_rdBits hr, r.readBits_ok (by omega) (by omega) hp rfl rfl, State.answerRead_ok]
  rfl

/-! ## Where a reader can move (41_bitreader.md R126) -/

/-- A command that goes on and does not construct the reader in a slot moves it `m` bits on, at most 8, and only inside
its buffer. -/
theorem exec_reader_advances {i : Instr} {s t : State} {k : Nat} {r : Reader} (h : exec i s = .next t)
    (hr : s.rd[k]? = some (some r)) (hnew : ∀ truncate bytes, i ≠ .rdNew k truncate bytes) :
    ∃ m, m ≤ 8 ∧ (m = 0 ∨ r.bitPosition + m ≤ 8 * r.buffer.length) ∧
      t.rd[k]? = some (some { r with bitPosition := r.bitPosition + m }) := by
  have heffect : Effect i s (.next t) := h ▸ exec_effect s i
  cases heffect with
  | @readerMoved j r₀ m _ _ hr₀ hm =>
    obtain ⟨-, h8, hinside⟩ := hm
    by_cases hj : j = k
    · subst hj
      obtain rfl : r₀ = r := by simpa [hr] using hr₀.symm
      exact ⟨m, h8, .inr hinside, List.getElem?_set_self (lt_of_getElem?_some hr)⟩
    · exact ⟨0, Nat.zero_le 8, .inl rfl, (List.getElem?_set_ne hj).trans hr⟩
  | @readerNew j _ _ hcmd =>
    have hj : j ≠ k := fun hj => hnew _ _ (hj ▸ hcmd)
    exact ⟨0, Nat.zero_le 8, .inl rfl, (List.getElem?_set_ne hj).trans hr⟩
  | raised | answered | writerSet | codecNew => exact ⟨0, Nat.zero_le 8, .inl rfl, hr⟩

section
variable {s : State} {k : Nat} {r : Reader} (hr : s.rd[k]? = some (some r))
  (hend : r.bitPosition = 8 * r.buffer.length)
include hr hend

theorem exec_rdBits_atEnd {n : Int} (h1 : 1 ≤ n) (h8 : n ≤ 8) :
    exec (.rdBits k n) s = .next { s with response := some (.error .endOfBuffer) } := by
  rw [exec_rdBits hr, r.readBits_atEnd h1 h8 hend.ge, State.answerRead_error]

theorem exec_rdEof_atEnd : exec (.rdEof k) s = .next { s with response := some (.ok (some (.value 1))) } := by
  have heof : r.eof = true := (Reader.eof_iff_atEnd hend.le).mpr hend
  rw [exec_rdEof hr, heof]
  rfl

/-- No bit remains to move over. -/
theorem exec_reader_stays_atEnd {i : Instr} {t : State} (hnew : ∀ truncate bytes, i ≠ .rdNew k truncate bytes)
    (h : exec i s = .next t) : t.rd[k]? = some (some r) := by
  obtain ⟨m, -, hm, ht⟩ := exec_reader_advances h hr hnew
  obtain rfl : m = 0 := by omega
  exact ht

end

/-- Settles O36: `exec_reader_advances` for every command, and what each command of the unit does at the end. -/
theorem readerAtTheEndIsTerminal : Obligations.ReaderAtTheEndIsTerminal := by
  refine ⟨fun i s t k r r' h hr hinv hr' hnew => ?_, fun s k r hr hend => ⟨fun n => exec_rdBits_atEnd hr hend, ?_⟩⟩
  · obtain ⟨m, h8, hm, ht⟩ := exec_reader_advances h hr hnew
    obtain rfl : { r with bitPosition := r.bitPosition + m } = r' := by simpa [ht] using hr'
    unfold Reader.Inv at hinv ⊢
    dsimp only
    omega
  · exact ⟨exec_rdBits_atEnd hr hend (by omega) (by omega), exec_rdAlign_aligned hr (by omega),
      exec_rdAlign_of_error hr (Reader.moveToByteBoundary_forced_atEnd hend), exec_rdEof_atEnd hr hend,
      fun i t => exec_reader_stays_atEnd hr hend⟩

end Sys2Proof.Machine
end

