-- ==== Sys2Proof/Proofs/BitWriter.lean ====
section
/-! The BitWriter unit (42_bitwriter.md). A command on a slot that holds a writer stores what a function of the writer
computes and answers (`exec_wrBits` to `exec_wrFin`), so a statement is a law of that function; a command that answers
OK did find a writer (`State.withWriter_of_ok`). -/

namespace Sys2Proof.Machine

/-! ## What each command does to the writer in its slot -/

/-- The outcome of a command that appends: the writer after it stored and no result, or the error. -/
def State.answerWrite (s : State) (k : Nat) : Except ErrorKind Writer → StepOutcome
  | .ok after => (s.setWriter k after).reply none
  | .error kind => s.raise kind

@[simp] theorem State.answerWrite_ok (s : State) (k : Nat) (after : Writer) :
    s.answerWrite k (.ok after) = .next { s with wr := s.wr.set k (some after), response := some (.ok none) } := rfl

@[simp] theorem State.answerWrite_error (s : State) (k : Nat) (kind : ErrorKind) :
    s.answerWrite k (.error kind) = .next { s with response := some (.error kind) } := rfl

section
variable {s : State} {k : Nat} {w : Writer} (hw : s.wr[k]? = some (some w))
include hw

/-- Storing back the writer a slot holds keeps the array. -/
theorem State.wr_set_self : s.wr.set k (some w) = s.wr := congrArg State.wr (State.setWriter_self hw)

/-- The slot holds the writer that was stored over another. -/
theorem State.wr_set_getElem? (after : Writer) : (s.wr.set k (some after))[k]? = some (some after) :=
  List.getElem?_set_self (lt_of_getElem?_some hw)

theorem exec_wrLen : exec (.wrLen k) s = .next { s with response := some (.ok (some (.value w.bits.length))) } :=
  State.withWriter_instance hw

theorem exec_wrBits (bitString : Octets) : exec (.wrBits k bitString) s = s.answerWrite k (w.writeBits bitString) := by
  change s.withWriter k _ = _
  rw [State.withWriter_instance hw]
  cases w.writeBits bitString <;> rfl

theorem exec_wrByte (byte : Int) : exec (.wrByte k byte) s = s.answerWrite k (w.writeByte byte) := by
  change s.withWriter k _ = _
  rw [State.withWriter_instance hw]
  cases w.writeByte byte <;> rfl

theorem exec_wrPad (force : Bool) :
    exec (.wrPad k force) s = .next { s with
      wr := s.wr.set k (some { bits := paddedBits w.bits force }), response := some (.ok none) } := by
  rw [← w.padToByteBoundary_eq]
  exact State.withWriter_instance hw

theorem exec_wrPop_of_ok {n : Int} {out : Bits} {after : Writer} (h : w.pop n = .ok (out, after)) :
    exec (.wrPop k n) s = .next { s with
      wr := s.wr.set k (some after), response := some (.ok (some (.octets (str out)))) } := by
  change s.withWriter k _ = _
  rw [State.withWriter_instance hw, h]
  rfl

theorem exec_wrPop_of_error {n : Int} {kind : ErrorKind} (h : w.pop n = .error kind) :
    exec (.wrPop k n) s = .next { s with response := some (.error kind) } := by
  change s.withWriter k _ = _
  rw [State.withWriter_instance hw, h]
  rfl

theorem exec_wrFin (force : Bool) :
    exec (.wrFin k force) s = .next { s with
      wr := s.wr.set k (some (w.finalize force).2),
      response := some (.ok (some (.octets (w.finalize force).1))) } :=
  State.withWriter_instance hw

end

/-! ## What an OK response says -/

section
variable {s t : State} {k : Nat} {result : Option Result} (hresponse : t.response = some (.ok result))
include hresponse

/-- A command on a writer slot answers OK only where the slot holds a writer. -/
theorem State.withWriter_of_ok {f : Writer → StepOutcome} (h : s.withWriter k f = .next t) :
    ∃ w, s.wr[k]? = some (some w) := by
  rcases s.withWriter_cases k f with ⟨-, hf⟩ | ⟨-, hf⟩ | ⟨w, hw, -⟩
  · obtain rfl := State.raise_next_iff.mp (hf.symm.trans h)
    cases hresponse
  · obtain rfl := State.raise_next_iff.mp (hf.symm.trans h)
    cases hresponse
  · exact ⟨w, hw⟩

/-- An append answers OK only where it computed a writer, which is then stored. -/
theorem State.answerWrite_of_ok {outcome : Except ErrorKind Writer} (h : s.answerWrite k outcome = .next t) :
    ∃ after, outcome = .ok after ∧ t = { s with wr := s.wr.set k (some after), response := some (.ok none) } := by
  cases outcome with
  | error kind =>
    cases h
    cases hresponse
  | ok after =>
    cases h
    exact ⟨after, rfl, rfl⟩

end

/-- A command that answers an error changes nothing but the response (60_exceptions.md R209). -/
theorem exec_error_changes_response_only {i : Instr} {s t : State} {kind : ErrorKind} (h : exec i s = .next t)
    (hresponse : t.response = some (.error kind)) : t = { s with response := some (.error kind) } := by
  have heffect : Effect i s (.next t) := h ▸ exec_effect s i
  cases heffect with
  | raised =>
    cases hresponse
    rfl
  | _ => cases hresponse

/-! ## WR.LEN, WR.BITS and WR.BYTE (42_bitwriter.md R141 to R143) -/

/-- Settles O37. -/
theorem wrLenCountsTheBits : Obligations.WrLenCountsTheBits := fun _ _ _ => exec_wrLen

/-- Settles O38: a bit string is the string of its bits, and any other character fails the examination. -/
theorem wrBitsAppendsAllOrNothing : Obligations.WrBitsAppendsAllOrNothing := by
  intro s k w hw
  refine ⟨fun x => ?_, fun bitString hbad => ?_, fun bitString hall => ?_⟩
  · rw [exec_wrBits hw, w.writeBits_ok (isBitStr_str x), bitsOf_str, State.answerWrite_ok]
  · have hbitStr : isBitStr bitString = false := by
      rw [← Bool.not_eq_true, isBitStr_iff]
      obtain ⟨c, hc, h0, h1⟩ := hbad
      exact fun hall => (hall c hc).elim h0 h1
    rw [exec_wrBits hw, w.writeBits_bad hbitStr, State.answerWrite_error]
  · exact ⟨bitsOf bitString, (str_bitsOf (isBitStr_iff.mpr hall)).symm⟩

/-- Settles O39: the bits are `toBits` of the byte, whose number is the byte. -/
theorem wrByteAppendsEightBits : Obligations.WrByteAppendsEightBits := by
  intro s k byte w hw
  refine ⟨fun h0 h255 => ⟨toBits byte.toNat 8, toBits_length _ _, ?_, ?_⟩, fun hrange => ?_⟩
  · rw [toNat_toBits (by omega), Int.toNat_of_nonneg h0]
  · rw [exec_wrByte hw, w.writeByte_ok ⟨h0, h255⟩, State.answerWrite_ok]
  · rw [exec_wrByte hw, w.writeByte_bad (by omega), State.answerWrite_error]

/-! ## WR.PAD and WR.FIN (42_bitwriter.md R144, R145, R147) -/

/-- Settles O40. -/
theorem wrPadAppendsThePadPattern : Obligations.WrPadAppendsThePadPattern :=
  fun _ _ force w hw => ⟨exec_wrPad hw force, paddedBits_length w.bits force⟩

/-- Settles O42: the two halves of `Writer.finalize_spec`. -/
theorem wrFinPacksThePaddedBits : Obligations.WrFinPacksThePaddedBits := by
  intro s k force w hw
  obtain ⟨hafter, hstream⟩ := w.finalize_spec force
  exact ⟨(w.finalize force).1, hafter ▸ exec_wrFin hw force, hstream⟩

/-- After an OK response of `WR.FIN` the writer holds the stream of the bytes returned (20_memory.md R44). -/
theorem exec_wrFin_leaves_stream {s t : State} {k : Nat} {force : Bool} {out : Octets}
    (h : exec (.wrFin k force) s = .next t) (hresponse : t.response = some (.ok (some (.octets out)))) :
    t.wr[k]? = some (some { bits := streamOf out }) := by
  obtain ⟨w, hw⟩ := State.withWriter_of_ok hresponse h
  obtain ⟨bytes, hexec, hstream⟩ := wrFinPacksThePaddedBits s k force w hw
  cases hexec.symm.trans h
  cases hresponse
  rw [hstream]
  exact State.wr_set_getElem? hw _

/-! ## WR.POP (42_bitwriter.md R146) -/

/-- Settles O41: the two laws of `pop`, one for each clause. -/
theorem wrPopTakesTheLastBits : Obligations.WrPopTakesTheLastBits :=
  fun _ _ => ⟨fun kept out hw => exec_wrPop_of_ok hw (Writer.pop_ok kept out),
    fun w _ hw hn => exec_wrPop_of_error hw (w.pop_bad hn)⟩

/-! ## The laws of the writer (42_bitwriter.md R148) -/

/-- Settles O43: `Writer.pop_writeBits` undoes the append, and what is stored back is what the slot held at first. -/
theorem popUndoesWrite : Obligations.PopUndoesWrite := by
  intro s t k bitString h hresponse
  obtain ⟨w, hw⟩ := State.withWriter_of_ok hresponse h
  rw [exec_wrBits hw] at h
  obtain ⟨after, hwrite, rfl⟩ := State.answerWrite_of_ok hresponse h
  obtain ⟨hpop, hstr⟩ := Writer.pop_writeBits hwrite
  rw [exec_wrPop_of_ok (State.wr_set_getElem? hw after) hpop, hstr, List.set_set, State.wr_set_self hw]

/-- A writer that holds the stream of a byte array is finalised to the array and gets no pad. -/
theorem exec_wrFin_of_stream {s : State} {k : Nat} {bytes : Octets}
    (hw : s.wr[k]? = some (some { bits := streamOf bytes })) :
    exec (.wrFin k false) s = .next { s with response := some (.ok (some (.octets bytes))) } := by
  rw [exec_wrFin hw, Writer.finalize_writeBytes, State.wr_set_self hw]

theorem slice_one {w : Bits} {p : Nat} (h : p < w.length) : slice w p 1 = [w[p]] := by
  rw [slice, List.drop_eq_getElem_cons h, List.take_succ_cons, List.take_zero]

/-- A read of one bit inside the buffer returns that bit of the stream. -/
theorem exec_rdBits_one {s : State} {k : Nat} {r : Reader} (hr : s.rd[k]? = some (some r))
    (hp : r.bitPosition < (streamOf r.buffer).length) :
    exec (.rdBits k 1) s = (s.setReader k { r with bitPosition := r.bitPosition + 1 }).reply
      (some (.value (streamOf r.buffer)[r.bitPosition].toNat)) := by
  have hinside : r.bitPosition + 1 ≤ 8 * r.buffer.length := by
    rw [streamOf_length] at hp
    exact hp
  have hread := exec_rdBits_complete hr (n := 1) le_rfl (by omega) hinside
  rw [slice_one hp] at hread
  simpa [toNat_cons] using hread

/-- Settles O44: `exec_wrFin_of_stream`, and a one-bit read of the stream that `WR.FIN` left in the writer. -/
theorem packingIsTheMirrorOfReading : Obligations.PackingIsTheMirrorOfReading := by
  refine ⟨fun s k bytes => exec_wrFin_of_stream, ?_⟩
  intro s t u k j p force truncate out w h hresponse hw hr hp
  obtain rfl : w = { bits := streamOf out } := by simpa [hw] using exec_wrFin_leaves_stream h hresponse
  exact ⟨_, exec_rdBits_one hr hp, (streamOf out)[p], List.getElem?_eq_getElem hp, rfl⟩

/-- `WR.BYTE` for each byte of an array appends the array's stream. -/
theorem State.writeBytes_appends_stream (k : Nat) (bytes : Octets) {s : State} {w : Writer}
    (hw : s.wr[k]? = some (some w)) :
    ∃ t, State.writeBytes k bytes s = .next t ∧ t.wr[k]? = some (some { bits := w.bits ++ streamOf bytes }) := by
  induction bytes generalizing s w with
  | nil => exact ⟨s, rfl, by rw [streamOf_nil, List.append_nil, hw]⟩
  | cons byte rest ih =>
    have hbyte : (0 : Int) ≤ byte.toNat ∧ (byte.toNat : Int) ≤ 255 := by omega
    have hexec := exec_wrByte hw byte.toNat
    rw [w.writeByte_ok hbyte, Int.toNat_natCast, State.answerWrite_ok] at hexec
    simp only [State.writeBytes, hexec, streamOf_cons, ← List.append_assoc]
    exact ih (State.wr_set_getElem? hw _)

/-- Settles O58: the empty writer ends up with the array's stream, which `WR.FIN` packs to the array. -/
theorem writingBytesAndFinishingReturnsThem : Obligations.WritingBytesAndFinishingReturnsThem := by
  intro s k bytes hw
  obtain ⟨t, hwrite, ht⟩ := State.writeBytes_appends_stream k bytes hw
  exact ⟨t, hwrite, exec_wrFin_of_stream ht⟩

/-- Settles O57: an error changes the response alone; an OK response stored a writer of the length
`Writer.length_laws` gives. -/
theorem writerLengthFollowsTheCommands : Obligations.WriterLengthFollowsTheCommands := by
  intro i s t k w h hw
  refine ⟨fun kind hresponse => by rw [exec_error_changes_response_only h hresponse], fun result hresponse => ?_⟩
  obtain ⟨hbits, hbyte, hpad, hpop⟩ := w.length_laws
  refine ⟨?_, ?_, ?_, ?_⟩
  · rintro bitString rfl
    obtain ⟨after, hwrite, rfl⟩ := State.answerWrite_of_ok hresponse (exec_wrBits hw bitString ▸ h)
    exact ⟨after, State.wr_set_getElem? hw after, hbits bitString after hwrite⟩
  · rintro byte rfl
    obtain ⟨after, hwrite, rfl⟩ := State.answerWrite_of_ok hresponse (exec_wrByte hw byte ▸ h)
    exact ⟨after, State.wr_set_getElem? hw after, hbyte byte after hwrite⟩
  · rintro force (rfl | rfl)
    · cases (exec_wrPad hw force).symm.trans h
      exact ⟨_, State.wr_set_getElem? hw _, paddedBits_growth w.bits force⟩
    · cases (exec_wrFin hw force).symm.trans h
      exact ⟨_, State.wr_set_getElem? hw _, (hpad force).2⟩
  · rintro n rfl
    rcases w.pop_cases n with herror | ⟨out, kept, hok, -, -⟩
    · cases (exec_wrPop_of_error hw herror).symm.trans h
      cases hresponse
    · cases (exec_wrPop_of_ok hw hok).symm.trans h
      exact ⟨_, State.wr_set_getElem? hw _, hpop n out _ hok⟩

end Sys2Proof.Machine
end

