-- ==== Sys2Proof/Proofs/BaseN.lean ====
section
/-! The codec unit (43_basen_codec.md). Each command answers what one function of its configuration computes
(`exec_cdEncraw` to `exec_of_validatesWith`), so a statement is a law of that function. The law behind the round trip
is `IsRawEncoding.codes_eq`: the codes of the raw symbols, put together again, are the stream of the bytes and fewer
than `k` zero bits. -/

namespace Sys2Proof.Machine

/-! ## What each command answers -/

section
variable {s : State} {k : Nat} {cfg : Codec} (hc : s.cd[k]? = some (some cfg))
include hc

theorem exec_cdEncraw (bytes : Octets) :
    exec (.cdEncraw k bytes) s =
      .next { s with response := some (.ok (some (.octets (symbolOctets (cfg.encodeRaw bytes))))) } :=
  State.withCodec_instance hc

theorem exec_cdDecraw (e : Octets) :
    exec (.cdDecraw k e) s = s.answer (fun symbols => .octets (symbolOctets symbols)) (cfg.decodeRaw e) := by
  change s.withCodec k _ = _
  rw [State.withCodec_instance hc]
  cases cfg.decodeRaw e <;> rfl

end

section
variable {i : Instr} {s : State} {cfg : Codec} {payload : Octets}

theorem exec_of_encodesWith (h : EncodesWith s i cfg payload) :
    exec i s = .next { s with response := some (.ok (some (.octets (cfg.encode payload)))) } := by
  rcases h with ⟨k, rfl, hc⟩ | ⟨rfl, rfl⟩ | ⟨rfl, rfl⟩
  · exact State.withCodec_instance hc
  · rfl
  · rfl

theorem exec_of_decodesWith (h : DecodesWith s i cfg payload) : exec i s = s.replyDecoded (cfg.decode payload) := by
  rcases h with ⟨k, rfl, hc⟩ | ⟨rfl, rfl⟩ | ⟨rfl, rfl⟩
  · exact State.withCodec_instance hc
  · rfl
  · rfl

theorem exec_of_validatesWith (h : ValidatesWith s i cfg payload) :
    exec i s = .next { s with response := some (.ok (some (.value (cfg.isValid payload).toNat))) } := by
  rcases h with ⟨k, rfl, hc⟩ | ⟨rfl, rfl⟩ | ⟨rfl, rfl⟩
  · exact State.withCodec_instance hc
  · rfl
  · rfl

end

section
variable (s : State)

@[simp] theorem State.replyDecoded_bytes (out : Octets) :
    s.replyDecoded (.bytes out) = .next { s with response := some (.ok (some (.octets out))) } := rfl

@[simp] theorem State.replyDecoded_error (kind : ErrorKind) :
    s.replyDecoded (.error kind) = .next { s with response := some (.error kind) } := rfl

@[simp] theorem State.replyDecoded_overcut : s.replyDecoded .overcut = .refused .decodeOvercut := rfl

end

/-- A command on a codec slot answers OK only where the slot holds a codec. -/
theorem State.withCodec_of_ok {s t : State} {k : Nat} {result : Option Result} {f : Codec → StepOutcome}
    (hresponse : t.response = some (.ok result)) (h : s.withCodec k f = .next t) :
    ∃ cfg, s.cd[k]? = some (some cfg) := by
  rcases s.withCodec_cases k f with ⟨-, hf⟩ | ⟨-, hf⟩ | ⟨cfg, hc, -⟩
  · obtain rfl := State.raise_next_iff.mp (hf.symm.trans h)
    cases hresponse
  · obtain rfl := State.raise_next_iff.mp (hf.symm.trans h)
    cases hresponse
  · exact ⟨cfg, hc⟩

/-- `CD.VALID` answers a value only where the slot holds a codec, and the value is `isValid`. -/
theorem exec_cdValid_answer {s t : State} {k n : Nat} {e : Octets} (h : exec (.cdValid k e) s = .next t)
    (hresponse : t.response = some (.ok (some (.value n)))) :
    ∃ cfg, s.cd[k]? = some (some cfg) ∧ n = (cfg.isValid e).toNat := by
  obtain ⟨cfg, hc⟩ := State.withCodec_of_ok hresponse h
  cases (exec_of_validatesWith (.inl ⟨k, rfl, hc⟩)).symm.trans h
  cases hresponse
  exact ⟨cfg, hc, rfl⟩

/-! ## Purity (43_basen_codec.md R180) -/

/-- The codec array after an update depends on the codec array before it alone. -/
theorem Update.apply_cd_congr (u : Update) {s₁ s₂ : State} (h : s₁.cd = s₂.cd) : (u.apply s₁).cd = (u.apply s₂).cd := by
  cases u with
  | nothing => exact h
  | reader => exact h
  | writer => exact h
  | codec k c => exact congrArg (·.set k (some c)) h

/-- A command that names no reader and no writer slot changes none, and only a construction changes a codec slot. -/
theorem exec_changes_codecs_only {i : Instr} {s t : State}
    (hunit : ∀ array k, i.slotRef = some (array, k) → array = .cd) (h : exec i s = .next t) :
    t.rd = s.rd ∧ t.wr = s.wr ∧ (i.isConstructor = false → t.cd = s.cd) := by
  have heffect : Effect i s (.next t) := h ▸ exec_effect s i
  cases heffect with
  | raised => exact ⟨rfl, rfl, fun _ => rfl⟩
  | answered => exact ⟨rfl, rfl, fun _ => rfl⟩
  | readerMoved hcmd => rcases hcmd with ⟨n, rfl⟩ | rfl | ⟨force, rfl⟩ <;> cases hunit _ _ rfl
  | readerNew hcmd =>
    subst hcmd
    cases hunit _ _ rfl
  | writerSet href => cases hunit _ _ href
  | codecNew _ hnew => exact ⟨rfl, rfl, fun hold => absurd (hold.symm.trans hnew) nofun⟩

/-- A command that names no reader and no writer slot does the same in two states with the same codecs. -/
theorem exec_congr_of_codecs_eq {i : Instr} {s₁ s₂ t₁ : State}
    (hunit : ∀ array k, i.slotRef = some (array, k) → array = .cd) (hcd : s₁.cd = s₂.cd) (h : exec i s₁ = .next t₁) :
    ∃ t₂, exec i s₂ = .next t₂ ∧ t₂.response = t₁.response ∧ t₂.cd = t₁.cd := by
  have hagree : s₁.AgreeOn i.slotRef s₂ := by
    intro array k href
    obtain rfl := hunit array k href
    exact congrArg (fun cd : List (Option Codec) => SlotContent.codec cd[k]?) hcd
  obtain ⟨a, -, hrun⟩ := exec_local i s₁
  rw [hrun s₁ (.refl _ s₁)] at h
  rw [hrun s₂ hagree]
  cases a with
  | answer u response =>
    cases h
    exact ⟨_, rfl, rfl, u.apply_cd_congr hcd.symm⟩
  | refuse why => cases h

/-- Settles O23: a command of the unit names a codec slot or none, so what it changes and what it reads are codecs. -/
theorem codecCommandsArePure : Obligations.CodecCommandsArePure := by
  intro i hi
  have hunit : ∀ array k, i.slotRef = some (array, k) → array = .cd := by
    intro array k href
    rcases hi with ⟨k', hk'⟩ | ⟨payload, rfl | rfl | rfl | rfl | rfl | rfl⟩
    · cases hk'.symm.trans href
      rfl
    all_goals cases href
  exact ⟨fun _ _ => exec_changes_codecs_only hunit, fun _ _ _ => exec_congr_of_codecs_eq hunit⟩

/-! ## CD.NEW (43_basen_codec.md R161) -/

/-- Settles O45: construction succeeds on a legal configuration and on no other, and its one error is
`InvalidArgument`. -/
theorem cdNewStoresExactlyTheLegalConfigurations : Obligations.CdNewStoresExactlyTheLegalConfigurations := by
  intro s k base strict alphabet pad hk
  change (∀ padChar, _ → _ → s.withSlot s.cd.length k _ = _) ∧ (_ → s.withSlot s.cd.length k _ = _)
  rw [State.withSlot_present hk]
  refine ⟨fun padChar hpad hinv => ?_, fun hillegal => ?_⟩
  · rw [hpad, Codec.construct_of_inv hinv]
    rfl
  · cases h : Codec.construct base strict alphabet pad with
    | ok c =>
      obtain ⟨hinv, rfl, rfl, rfl, hpad⟩ := Codec.construct_ok h
      exact absurd hinv (hillegal c.padChar hpad)
    | error kind =>
      rw [Codec.construct_error h]
      rfl

/-! ## The lookup (43_basen_codec.md R162) -/

/-- Equivalent characters are found at the same place. -/
theorem Codec.lookup_congr {cfg : Codec} {c d : Byte} (h : charKey cfg.base c = charKey cfg.base d) :
    cfg.lookup c = cfg.lookup d := by
  simp only [Codec.lookup, charEq, h]

/-- A capital letter and its small letter fold to the same code (00_scope.md R11). -/
theorem fold_small_letter {c : Byte} (hA : 0x41 ≤ c.toNat) (hZ : c.toNat ≤ 0x5A) : fold (c + 0x20#8) = fold c := by
  have hsmall : (c + 0x20#8).toNat = c.toNat + 0x20 := by
    rw [BitVec.toNat_add, BitVec.toNat_ofNat]
    omega
  rw [fold, fold, if_neg (by omega), if_pos ⟨hA, hZ⟩]

/-- Settles O46: the lookup inverts the alphabet, up to the key that equivalent characters share. -/
theorem lookupFindsTheUniqueIndex : Obligations.LookupFindsTheUniqueIndex := by
  intro cfg c hcfg
  refine ⟨fun i a hi => ?_, fun i => Codec.lookup_eq_some_iff hcfg, Codec.lookup_none, fun hbase i => ?_,
    fun hbase hA hZ => ?_⟩
  · rw [Codec.symbolChar, List.getD_eq_getElem?_getD, hi, Option.getD_some]
  · simp [Codec.lookup_eq_some_iff hcfg, hbase, charKey]
  · refine Codec.lookup_congr ?_
    rw [hbase]
    exact (fold_small_letter hA hZ).symm

/-! ## The raw symbols (43_basen_codec.md R163, R181) -/

/-- A symbol fits its octet. -/
theorem symbolOctets_toNat {base : Base} {symbols : List Nat} (h : ∀ v ∈ symbols, v < alphabetSize base) :
    (symbolOctets symbols).map BitVec.toNat = symbols := by
  rw [symbolOctets, List.map_map]
  refine (List.map_congr_left fun v hv => ?_).trans symbols.map_id
  have hoctet : alphabetSize base ≤ 2 ^ 8 := by cases base <;> decide
  exact Nat.mod_eq_of_lt ((h v hv).trans_le hoctet)

/-- Settles O47: the octets are the symbols of `encodeRaw`, a raw encoding with symbols below `2^k`. -/
theorem cdEncrawCutsTheStream : Obligations.CdEncrawCutsTheStream := by
  intro s k bytes cfg hc
  have hlt := cfg.encodeRaw_lt bytes
  refine ⟨_, _, exec_cdEncraw hc bytes, cfg.encodeRaw_spec bytes, symbolOctets_toNat hlt, ?_⟩
  rwa [two_pow_symbolBits]

/-- Symbols that cut a bit sequence every `k` bits give it back. -/
theorem flatMap_toBits_of_slices {k : Nat} {raw : List Nat} {w : Bits} (hlen : raw.length * k ≤ w.length)
    (hraw : ∀ i v, raw[i]? = some v → v = toNat (slice w (i * k) k)) :
    raw.flatMap (fun v => toBits v k) = w.take (raw.length * k) := by
  induction raw generalizing w with
  | nil => simp
  | cons v vs ih =>
    rw [List.length_cons, Nat.succ_mul] at hlen
    have hv : toBits v k = w.take k := by
      rw [hraw 0 v rfl]
      simpa [slice] using toBits_toNat' (w := w.take k) (m := k) (by simp; omega)
    have hvs : ∀ i u, vs[i]? = some u → u = toNat (slice (w.drop k) (i * k) k) := by
      intro i u hu
      rw [hraw (i + 1) u hu, slice, slice, List.drop_drop, Nat.succ_mul, Nat.add_comm k]
    rw [List.flatMap_cons, hv, ih (by simp; omega) hvs, ← List.take_add, List.length_cons, Nat.succ_mul, Nat.add_comm k]

/-- The codes of the raw symbols are the stream and fewer than `k` zero bits. -/
theorem IsRawEncoding.codes_eq {base : Base} {bytes : Octets} {raw : List Nat} (h : IsRawEncoding base bytes raw) :
    ∃ x, x < symbolBits base ∧ raw.length * symbolBits base = 8 * bytes.length + x ∧
      raw.flatMap (fun v => toBits v (symbolBits base)) = streamOf bytes ++ List.replicate x false := by
  obtain ⟨hlen, hraw⟩ := h
  obtain ⟨x, hxk, hcount⟩ :
      ∃ x, x < symbolBits base ∧ raw.length * symbolBits base = 8 * bytes.length + x := by
    refine ⟨raw.length * symbolBits base - 8 * bytes.length, ?_⟩
    rw [hlen]
    cases base <;> simp only [symbolBits] <;> omega
  have hk := symbolBits_le base
  refine ⟨x, hxk, hcount, ?_⟩
  have hlong : raw.length * symbolBits base ≤ (streamOf bytes ++ List.replicate 8 false).length := by
    simp
    omega
  rw [flatMap_toBits_of_slices hlong hraw, hcount, ← streamOf_length, List.take_length_add_append, List.take_replicate,
    Nat.min_eq_left (by omega)]

/-- The added zero bits are the low bits of the last symbol. -/
theorem IsRawEncoding.extraBits_zero {base : Base} {bytes : Octets} {raw : List Nat} (h : IsRawEncoding base bytes raw)
    {last : Nat} (hlast : raw.getLast? = some last) : last % 2 ^ (raw.length * symbolBits base % 8) = 0 := by
  obtain ⟨x, hxk, hcount, hcodes⟩ := h.codes_eq
  have hk := symbolBits_le base
  obtain ⟨init, rfl⟩ := List.getLast?_eq_some_iff.mp hlast
  rw [hcount, show (8 * bytes.length + x) % 8 = x by omega]
  have hnumber : toNat (init.flatMap fun v => toBits v (symbolBits base)) * 2 ^ symbolBits base
      + last % 2 ^ symbolBits base = toNat (streamOf bytes) * 2 ^ x := by
    simpa [toNat_append, toNat_toBits_mod] using congrArg toNat hcodes
  have hdvd : 2 ^ x ∣ 2 ^ symbolBits base := Nat.pow_dvd_pow 2 hxk.le
  have hlow : 2 ^ x ∣ last % 2 ^ symbolBits base :=
    (Nat.dvd_add_right (Dvd.dvd.mul_left hdvd _)).mp (hnumber ▸ Nat.dvd_mul_left _ _)
  exact Nat.mod_eq_zero_of_dvd ((Nat.dvd_mod_iff hdvd).mp hlow)

/-- A decoding of the raw symbols is the bytes. -/
theorem IsRawEncoding.eq_of_isDecoding {base : Base} {bytes out : Octets} {raw : List Nat}
    (h : IsRawEncoding base bytes raw) (hout : IsDecoding base raw out) : out = bytes := by
  obtain ⟨x, hxk, hcount, hcodes⟩ := h.codes_eq
  obtain ⟨hlen, hstream⟩ := hout
  have hk := symbolBits_le base
  have hlen' : out.length = bytes.length := by omega
  rw [hcodes, hlen', ← streamOf_length, List.take_left] at hstream
  rw [← packBytes_streamOf out, hstream, packBytes_streamOf]

theorem IsRawEncoding.not_overcut {base : Base} {bytes : Octets} {raw : List Nat} (h : IsRawEncoding base bytes raw) :
    ¬ Overcut base raw := by
  obtain ⟨x, hxk, hcount, -⟩ := h.codes_eq
  unfold Overcut
  omega

/-! ## Encoding (43_basen_codec.md R164) -/

theorem groupSize_pos (base : Base) : 0 < groupSize base := by cases base <;> decide

/-- The characters of an encoding before its pad characters. -/
def Codec.encodedBody (cfg : Codec) (bytes : Octets) : Octets := (cfg.encodeRaw bytes).map cfg.symbolChar

/-- The least number of pad characters that takes `n` symbols to a group boundary. -/
def padCount (base : Base) (n : Nat) : Nat := (groupSize base - n % groupSize base) % groupSize base

theorem Codec.encodedBody_length (cfg : Codec) (bytes : Octets) :
    (cfg.encodedBody bytes).length = (8 * bytes.length + symbolBits cfg.base - 1) / symbolBits cfg.base := by
  rw [Codec.encodedBody, List.length_map, (cfg.encodeRaw_spec bytes).1]

theorem Codec.encode_of_noPad {cfg : Codec} (hpad : cfg.padChar = none) (bytes : Octets) :
    cfg.encode bytes = cfg.encodedBody bytes := by
  simp [Codec.encode, Codec.encodedBody, hpad]

theorem Codec.encode_of_pad {cfg : Codec} {pc : Byte} (hpad : cfg.padChar = some pc) (bytes : Octets) :
    cfg.encode bytes =
      cfg.encodedBody bytes ++ List.replicate (padCount cfg.base (cfg.encodedBody bytes).length) pc := by
  simp only [Codec.encode, hpad]
  change (if (cfg.encodedBody bytes).length % groupSize cfg.base ≠ 0 then _ else cfg.encodedBody bytes) = _
  split
  · next hextra =>
    rw [padCount, Nat.mod_eq_of_lt (Nat.sub_lt (groupSize_pos cfg.base) (Nat.pos_of_ne_zero hextra))]
    rfl
  · next hextra => simp [padCount, not_not.mp hextra]

/-- An encoding with pad characters ends at a group boundary. -/
theorem padCount_reaches_boundary (base : Base) (n : Nat) : (n + padCount base n) % groupSize base = 0 := by
  cases base <;> simp only [padCount, groupSize] <;> omega

/-- The table of counts for base32 (43_basen_codec.md R181). -/
theorem padCount_base32 (len : Nat) :
    [0, 6, 4, 3, 1][len % 5]? = some (padCount .base32 ((8 * len + symbolBits .base32 - 1) / symbolBits .base32)) := by
  have hrest : len % 5 < 5 := Nat.mod_lt _ (by omega)
  simp only [padCount, groupSize, symbolBits]
  interval_cases hr : len % 5 <;> simp <;> omega

/-- The table of counts for base64 (43_basen_codec.md R181). -/
theorem padCount_base64 (len : Nat) :
    [0, 2, 1][len % 3]? = some (padCount .base64 ((8 * len + symbolBits .base64 - 1) / symbolBits .base64)) := by
  have hrest : len % 3 < 3 := Nat.mod_lt _ (by omega)
  simp only [padCount, groupSize, symbolBits]
  interval_cases hr : len % 3 <;> simp <;> omega

theorem Codec.padCount_permitted (cfg : Codec) (bytes : Octets) :
    padCount cfg.base (cfg.encodedBody bytes).length = 0 ∨
      padCount cfg.base (cfg.encodedBody bytes).length ∈ padRuns cfg.base := by
  have h32 : ∀ q ∈ [0, 6, 4, 3, 1], q = 0 ∨ q ∈ padRuns .base32 := by decide
  have h64 : ∀ q ∈ [0, 2, 1], q = 0 ∨ q ∈ padRuns .base64 := by decide
  rw [Codec.encodedBody_length]
  cases cfg.base with
  | base32 => exact h32 _ (List.mem_of_getElem? (padCount_base32 bytes.length))
  | base64 => exact h64 _ (List.mem_of_getElem? (padCount_base64 bytes.length))

/-- The pad character is no character of the alphabet, so it is none of the body's. -/
theorem Codec.pad_notMem_encodedBody {cfg : Codec} (hcfg : cfg.Inv) {pc : Byte} (hpad : cfg.padChar = some pc)
    (bytes : Octets) : pc ∉ cfg.encodedBody bytes := by
  intro hmem
  obtain ⟨v, hv, rfl⟩ := List.mem_map.mp hmem
  exact hcfg.pad _ hpad (Codec.symbolChar_mem hcfg (cfg.encodeRaw_lt bytes v hv))

/-- Settles O48: the answer is `encode`, which is an encoding. -/
theorem encodeAnswersThePaddedSymbols : Obligations.EncodeAnswersThePaddedSymbols :=
  fun _ _ _ bytes h hcfg => ⟨_, exec_of_encodesWith h, Codec.encode_spec hcfg bytes⟩

/-- Settles O49: the pad characters are `padCount` of the symbols, for which the table of counts is a case split on the
length. -/
theorem encodingPadCountIsPermitted : Obligations.EncodingPadCountIsPermitted := by
  intro cfg pc bytes hcfg hpad
  refine ⟨_, ⟨_, Codec.encode_of_pad hpad bytes, Codec.pad_notMem_encodedBody hcfg hpad bytes,
    cfg.encodedBody_length bytes⟩, cfg.padCount_permitted bytes, ?_⟩
  rw [Codec.encodedBody_length]
  cases cfg.base with
  | base32 => exact padCount_base32 bytes.length
  | base64 => exact padCount_base64 bytes.length

/-! ## Acceptance (43_basen_codec.md R165 to R167, R170) -/

theorem Codec.decodeRaw_of_not_accepted {cfg : Codec} {e : Octets} (h : ¬ ∃ symbols, AcceptedAs cfg e symbols) :
    cfg.decodeRaw e = .error .invalidFormat := by
  cases hraw : cfg.decodeRaw e with
  | ok symbols => exact absurd ⟨symbols, Codec.decodeRaw_sound hraw⟩ h
  | error kind => rw [Codec.decodeRaw_error hraw]

theorem Codec.isValid_iff_decodeRaw {cfg : Codec} {e : Octets} :
    cfg.isValid e = true ↔ ∃ symbols, cfg.decodeRaw e = .ok symbols := by
  rw [Codec.isValid]
  cases cfg.decodeRaw e <;> simp

theorem Codec.isValid_iff_accepted {cfg : Codec} (hcfg : cfg.Inv) {e : Octets} :
    cfg.isValid e = true ↔ ∃ symbols, AcceptedAs cfg e symbols := by
  simp only [Codec.isValid_iff_decodeRaw, Codec.decodeRaw_ok_iff hcfg]

/-- An accepted string has one character a symbol and a permitted number of pad characters, which are all the pad
characters it has. -/
theorem AcceptedAs.padding {cfg : Codec} {e : Octets} {symbols : List Nat} (h : AcceptedAs cfg e symbols) :
    ∃ q, e.length = symbols.length + q ∧ (q = 0 ∨ q ∈ padRuns cfg.base) ∧
      (cfg.strict = true ∨ 0 < q → e.length % groupSize cfg.base = 0) ∧
      (q = 0 → ∀ pc, cfg.padChar = some pc → pc ∉ e) := by
  obtain ⟨body, q, hform, hrun, hlength, hall, -⟩ := h
  refine ⟨q, ?_, hrun, hlength, ?_⟩
  · rw [← hall.length_eq]
    split at hform
    · obtain ⟨rfl, rfl⟩ := hform
      rfl
    · rw [hform.1, List.length_append, List.length_replicate]
  · rintro rfl pc hpad
    rw [hpad] at hform
    obtain ⟨rfl, hbody⟩ := hform
    rwa [List.replicate_zero, List.append_nil]

/-- A string with an overcut is base32 and three or six symbols past a group boundary: the extra bits exceed the symbol
at no other count (43_basen_codec.md R167). -/
theorem Overcut.symbol_count {base : Base} {symbols : List Nat} (h : Overcut base symbols) :
    base = .base32 ∧ (symbols.length % 8 = 3 ∨ symbols.length % 8 = 6) := by
  unfold Overcut at h
  cases base with
  | base32 =>
    simp only [symbolBits, Nat.mul_mod symbols.length] at h
    have hrest : symbols.length % 8 < 8 := Nat.mod_lt _ (by omega)
    refine ⟨rfl, ?_⟩
    interval_cases symbols.length % 8 <;> simp at h ⊢
  | base64 =>
    simp only [symbolBits] at h
    omega

/-- The extra bits cover the whole last symbol. -/
theorem AcceptedAs.getLast?_of_overcut {cfg : Codec} (hcfg : cfg.Inv) {e : Octets} {symbols : List Nat}
    (h : AcceptedAs cfg e symbols) (hover : Overcut cfg.base symbols) : symbols.getLast? = some 0 := by
  have hne : symbols ≠ [] := by
    rintro rfl
    simp [Overcut] at hover
  obtain ⟨last, hlast⟩ := Option.ne_none_iff_exists'.mp (List.getLast?_eq_none_iff.not.mpr hne)
  have hlt : last < 2 ^ (symbols.length * symbolBits cfg.base % 8) := by
    have hsymbol := h.symbol_lt hcfg last (List.mem_of_getLast? hlast)
    rw [← two_pow_symbolBits] at hsymbol
    exact hsymbol.trans (Nat.pow_lt_pow_right (by omega) hover)
  obtain ⟨-, -, -, -, -, -, hzero⟩ := h
  rw [hlast, ← hzero last hlast, Nat.mod_eq_of_lt hlt]

/-- No permitted pad run takes such a string to a group boundary. -/
theorem AcceptedAs.unpadded_of_overcut {cfg : Codec} {e : Octets} {symbols : List Nat} (h : AcceptedAs cfg e symbols)
    (hover : Overcut cfg.base symbols) : cfg.strict = false ∧ ∀ pc, cfg.padChar = some pc → pc ∉ e := by
  obtain ⟨hbase, hcount⟩ := hover.symbol_count
  obtain ⟨q, hlength, hrun, hgroup, hpad⟩ := h.padding
  simp only [hbase, padRuns, groupSize, List.mem_cons, List.not_mem_nil, or_false] at hrun hgroup
  have hq : ¬ (cfg.strict = true ∨ 0 < q) := fun hstrict => by
    have := hgroup hstrict
    omega
  obtain ⟨hstrict, hq⟩ := not_or.mp hq
  exact ⟨Bool.eq_false_iff.mpr hstrict, hpad (Nat.eq_zero_of_not_pos hq)⟩

/-- Settles O50: `decodeRaw` succeeds exactly on the accepted strings, with their symbols. -/
theorem cdDecrawAcceptsExactlyTheValidStrings : Obligations.CdDecrawAcceptsExactlyTheValidStrings := by
  intro s k e cfg hc hcfg
  rw [exec_cdDecraw hc]
  refine ⟨fun symbols hacc => ⟨?_, hacc.symbol_lt hcfg⟩, fun hnone => ?_⟩
  · rw [Codec.decodeRaw_complete hcfg hacc]
    rfl
  · rw [Codec.decodeRaw_of_not_accepted hnone, State.answer_error]

/-- Settles O52: the answer is `isValid`. -/
theorem validAnswersWhetherTheStringIsAccepted : Obligations.ValidAnswersWhetherTheStringIsAccepted :=
  fun _ _ _ _ h hcfg => ⟨_, exec_of_validatesWith h, Codec.isValid_iff_accepted hcfg⟩

/-! ## Decoding (43_basen_codec.md R168, R169, R179) -/

section
variable {cfg : Codec} {e : Octets}

theorem Codec.decode_of_decodeRaw_error {kind : ErrorKind} (h : cfg.decodeRaw e = .error kind) :
    cfg.decode e = .error kind := by
  rw [Codec.decode, h]

theorem Codec.decode_of_not_accepted (h : ¬ ∃ symbols, AcceptedAs cfg e symbols) :
    cfg.decode e = .error .invalidFormat :=
  Codec.decode_of_decodeRaw_error (Codec.decodeRaw_of_not_accepted h)

theorem Codec.decode_of_overcut {symbols : List Nat} (h : cfg.decodeRaw e = .ok symbols)
    (hover : Overcut cfg.base symbols) : cfg.decode e = .overcut := by
  rw [Codec.decode, h]
  exact if_pos hover

theorem Codec.decode_of_not_valid (h : cfg.isValid e = false) : cfg.decode e = .error .invalidFormat := by
  cases hraw : cfg.decodeRaw e with
  | ok symbols => exact absurd (Codec.isValid_iff_decodeRaw.mpr ⟨symbols, hraw⟩) (Bool.eq_false_iff.mp h)
  | error kind => rw [Codec.decode_of_decodeRaw_error hraw, Codec.decodeRaw_error hraw]

/-- A string that decodes to symbols is decoded to bytes, or is an overcut. -/
theorem Codec.decode_of_decodeRaw_ok {symbols : List Nat} (h : cfg.decodeRaw e = .ok symbols) :
    (∃ out, cfg.decode e = .bytes out) ∨ cfg.decode e = .overcut := by
  by_cases hover : Overcut cfg.base symbols
  · exact .inr (Codec.decode_of_overcut h hover)
  · obtain ⟨out, hout, -⟩ := Codec.decode_spec h hover
    exact .inl ⟨out, hout⟩

theorem Codec.decode_eq_overcut_iff (hcfg : cfg.Inv) :
    cfg.decode e = .overcut ↔ ∃ symbols, AcceptedAs cfg e symbols ∧ Overcut cfg.base symbols := by
  constructor
  · intro h
    rcases cfg.decode_cases e with herror | ⟨symbols, hraw, hover, -⟩ | ⟨symbols, out, -, -, hbytes⟩
    · cases h.symm.trans herror
    · exact ⟨symbols, Codec.decodeRaw_sound hraw, hover⟩
    · cases h.symm.trans hbytes
  · rintro ⟨symbols, hacc, hover⟩
    exact Codec.decode_of_overcut (Codec.decodeRaw_complete hcfg hacc) hover

end

theorem State.replyDecoded_refused_iff {s : State} {d : Decoded} :
    (∃ why, s.replyDecoded d = .refused why) ↔ d = .overcut := by
  cases d <;> simp

/-- Settles O14: the outcome of `decode` is `overcut` exactly on such a string, and its number of symbols excludes every
permitted pad run. -/
theorem refusalIsExactlyTheOvercut : Obligations.RefusalIsExactlyTheOvercut := by
  intro i s cfg e hcfg hdec
  rw [exec_of_decodesWith hdec, State.replyDecoded_refused_iff, Codec.decode_eq_overcut_iff hcfg]
  refine ⟨Iff.rfl, fun symbols hacc hover => ?_⟩
  obtain ⟨hbase, hcount⟩ := hover.symbol_count
  exact ⟨hbase, hcount, hacc.getLast?_of_overcut hcfg hover, hacc.unpadded_of_overcut hover⟩

/-- Settles O51: `Codec.decode_spec` on an accepted string, an error on every other. -/
theorem decodeAnswersTheWholeBytes : Obligations.DecodeAnswersTheWholeBytes := by
  intro i s cfg e hdec hcfg
  rw [exec_of_decodesWith hdec]
  refine ⟨fun symbols hacc hover => ?_, fun hnone => ?_⟩
  · obtain ⟨out, hout, hdecoding⟩ := Codec.decode_spec (Codec.decodeRaw_complete hcfg hacc) hover
    exact ⟨out, by rw [hout, State.replyDecoded_bytes], hdecoding⟩
  · rw [Codec.decode_of_not_accepted hnone, State.replyDecoded_error]

/-- Settles O53: `CD.VALID` and `CD.DEC` on one slot go by the same `decodeRaw`. -/
theorem validityImpliesDecodability : Obligations.ValidityImpliesDecodability := by
  intro s t k e h
  refine ⟨fun hresponse => ?_, fun hresponse => ?_⟩
  · obtain ⟨cfg, hc, hvalid⟩ := exec_cdValid_answer h hresponse
    obtain ⟨symbols, hraw⟩ := Codec.isValid_iff_decodeRaw.mp (Bool.toNat_eq_one.mp hvalid.symm)
    rw [exec_of_decodesWith (.inl ⟨k, rfl, hc⟩)]
    rcases Codec.decode_of_decodeRaw_ok hraw with ⟨out, hout⟩ | hover
    · exact .inl ⟨out, by rw [hout, State.replyDecoded_bytes]⟩
    · exact .inr (by rw [hover, State.replyDecoded_overcut])
  · obtain ⟨cfg, hc, hinvalid⟩ := exec_cdValid_answer h hresponse
    rw [exec_of_decodesWith (.inl ⟨k, rfl, hc⟩), Codec.decode_of_not_valid (Bool.toNat_eq_zero.mp hinvalid.symm),
      State.replyDecoded_error]

/-! ## The round trip (43_basen_codec.md R178) -/

/-- The body of an encoding is the image of its symbols. -/
theorem Codec.encodedBody_maps {cfg : Codec} (hcfg : cfg.Inv) (bytes : Octets) :
    List.Forall₂ (fun c v => ∃ a, cfg.alphabet[v]? = some a ∧ charKey cfg.base a = charKey cfg.base c)
      (cfg.encodedBody bytes) (cfg.encodeRaw bytes) := by
  rw [Codec.encodedBody, List.forall₂_map_left_iff, List.forall₂_same]
  exact fun v hv => ⟨_, Codec.symbolChar_spec hcfg (cfg.encodeRaw_lt bytes v hv), rfl⟩

/-- An encoding is accepted with its symbols where the length rule lets an unpadded one through. -/
theorem Codec.encode_accepted {cfg : Codec} (hcfg : cfg.Inv) (bytes : Octets)
    (hlength : cfg.strict = true → cfg.padChar = none → (cfg.encode bytes).length % groupSize cfg.base = 0) :
    AcceptedAs cfg (cfg.encode bytes) (cfg.encodeRaw bytes) := by
  have hextra := fun last => (cfg.encodeRaw_spec bytes).extraBits_zero (last := last)
  cases hpad : cfg.padChar with
  | none =>
    refine ⟨cfg.encodedBody bytes, 0, ?_, .inl rfl, ?_, Codec.encodedBody_maps hcfg bytes, hextra⟩
    · rw [hpad]
      exact ⟨rfl, Codec.encode_of_noPad hpad bytes⟩
    · rintro (hstrict | hq)
      · exact hlength hstrict hpad
      · exact absurd hq (Nat.lt_irrefl 0)
  | some pc =>
    refine ⟨cfg.encodedBody bytes, padCount cfg.base (cfg.encodedBody bytes).length, ?_, cfg.padCount_permitted bytes,
      fun _ => ?_, Codec.encodedBody_maps hcfg bytes, hextra⟩
    · rw [hpad]
      exact ⟨Codec.encode_of_pad hpad bytes, Codec.pad_notMem_encodedBody hcfg hpad bytes⟩
    · rw [Codec.encode_of_pad hpad, List.length_append, List.length_replicate]
      exact padCount_reaches_boundary _ _

theorem Codec.decode_encode {cfg : Codec} (hcfg : cfg.Inv) (bytes : Octets)
    (hlength : cfg.strict = true → cfg.padChar = none → (cfg.encode bytes).length % groupSize cfg.base = 0) :
    cfg.decode (cfg.encode bytes) = .bytes bytes := by
  have hraw := cfg.encodeRaw_spec bytes
  have hacc := Codec.decodeRaw_complete hcfg (Codec.encode_accepted hcfg bytes hlength)
  obtain ⟨out, hout, hdecoding⟩ := Codec.decode_spec hacc hraw.not_overcut
  rw [hout, hraw.eq_of_isDecoding hdecoding]

/-- Settles O54: the second command decodes what the first encoded, with the same configuration. -/
theorem decodingAnEncodingGivesTheBytesBack : Obligations.DecodingAnEncodingGivesTheBytesBack := by
  intro i j s t cfg bytes out hcfg henc h hresponse hdec hlength
  cases (exec_of_encodesWith henc).symm.trans h
  cases hresponse
  rw [exec_of_decodesWith hdec, Codec.decode_encode hcfg bytes hlength, State.replyDecoded_bytes]

/-- Settles O55: the length rule lets no string of such a length through a strict codec. -/
theorem strictUnpaddedCodecRejectsItsShortEncodings : Obligations.StrictUnpaddedCodecRejectsItsShortEncodings := by
  intro s t k cfg bytes out hcfg hc hstrict hpad h hresponse hlength
  cases (exec_of_encodesWith (.inl ⟨k, rfl, hc⟩)).symm.trans h
  cases hresponse
  have hnone : ¬ ∃ symbols, AcceptedAs cfg (cfg.encode bytes) symbols := by
    rintro ⟨symbols, hacc⟩
    obtain ⟨q, -, -, hgroup, -⟩ := hacc.padding
    exact hlength (hgroup (.inl hstrict))
  refine Eq.trans (exec_of_decodesWith (.inl ⟨k, rfl, hc⟩)) ?_
  rw [Codec.decode_of_not_accepted hnone, State.replyDecoded_error]

end Sys2Proof.Machine
end

