-- ==== Sys2Proof/Proofs/Exceptions.lean ====
section
/-! Errors (60_exceptions.md): which errors a command raises and when, read off the `RaiseCause` of its effect, and that
an error leaves nothing behind. -/

namespace Sys2Proof.Machine

/-! ## Why a command raises -/

/-- A command that answers an error had a cause to raise it. -/
theorem exec_error_cause {i : Instr} {s t : State} {kind : ErrorKind} (h : exec i s = .next t)
    (hresponse : t.response = some (.error kind)) : RaiseCause i s kind := by
  have heffect : Effect i s (.next t) := h ▸ exec_effect s i
  cases heffect with
  | raised cause =>
    cases hresponse
    exact cause
  | _ => cases hresponse

/-- Settles O15: of the causes to raise, an illegal reader is one that a legal state does not hold. -/
theorem commandRaisesOnlyItsOwnErrors : Obligations.CommandRaisesOnlyItsOwnErrors := by
  intro i s t kind hs h hresponse
  cases exec_error_cause h hresponse with
  | own hown => exact .inl hown
  | missing => exact .inr (.inl rfl)
  | empty => exact .inr (.inr rfl)
  | illegalReader _ hr hillegal => exact absurd (hs.readers _ (List.mem_of_getElem? hr)) hillegal

/-! ## An Empty slot (60_exceptions.md R206) -/

/-- No command lists `NoInstance` among its own errors (60_exceptions.md R202). -/
theorem noInstance_not_mem_ownErrors (i : Instr) : ErrorKind.noInstance ∉ ownErrors i := by
  cases i with
  | rdAlign k force => cases force <;> simp [ownErrors]
  | _ => simp [ownErrors]

theorem exec_of_slotEmpty {i : Instr} {s : State} {array : SlotArray} {k : Nat}
    (href : i.slotRef = some (array, k)) (hnew : i.isConstructor = false) (h : s.SlotEmpty array k) :
    exec i s = s.raise .noInstance := by
  cases i <;> cases href
  case rdNew | wrNew | cdNew => cases hnew
  case rdEof | rdBits | rdAlign | rdByte => exact State.withReader_empty h
  case wrLen | wrBits | wrByte | wrPad | wrPop | wrFin => exact State.withWriter_empty h
  case cdEncraw | cdEnc | cdDecraw | cdDec | cdValid => exact State.withCodec_empty h

theorem slotEmpty_of_noInstance {i : Instr} {s t : State} (h : exec i s = .next t)
    (hresponse : t.response = some (.error .noInstance)) :
    i.isConstructor = false ∧ ∃ array k, i.slotRef = some (array, k) ∧ s.SlotEmpty array k := by
  cases exec_error_cause h hresponse with
  | own hown => exact absurd hown (noInstance_not_mem_ownErrors i)
  | empty href hnew hempty => exact ⟨hnew, _, _, href, hempty⟩

/-- Settles O16: the slot is looked up before anything else, and no command raises `NoInstance` of its own. -/
theorem emptySlotIsAnsweredNoInstance : Obligations.EmptySlotIsAnsweredNoInstance :=
  ⟨fun _ _ _ _ => exec_of_slotEmpty, fun _ _ _ => slotEmpty_of_noInstance⟩

/-! ## An error leaves no trace (60_exceptions.md R209, R211, R212) -/

/-- Settles O11: the one effect that answers an error is `raised`. -/
theorem failingCommandChangesOnlyTheResponse : Obligations.FailingCommandChangesOnlyTheResponse :=
  fun _ _ _ _ => exec_error_changes_response_only

/-- The response of the command before has no influence on a command's outcome, its new state included. -/
theorem exec_of_response (i : Instr) (s : State) (response : Option Response) :
    exec i { s with response := response } = exec i s := by
  obtain ⟨hnext, hrefused⟩ := hostSideIsNeverRead i s s.commands response
  cases h : exec i s with
  | next t =>
    obtain ⟨-, hcommands⟩ := exec_answers h
    rw [hnext t h, ← hcommands]
  | fault why => cases why
  | refused why => exact hrefused why h

/-- Settles O12: the response is all the failing command changed, and no command reads it. -/
theorem failedCommandLeavesNoTrace : Obligations.FailedCommandLeavesNoTrace := by
  intro i s t kind h hresponse
  have hsame (j : Instr) : exec j t = exec j s := by
    rw [exec_error_changes_response_only h hresponse, exec_of_response]
  exact ⟨hsame, (hsame i).trans h⟩

end Sys2Proof.Machine
end

