-- ==== Sys2Proof/Proofs/WorkedEncodings.lean ====
section
/-! The worked encodings (30_encoding.md section 9). A legal row is the encoder's packet of its command, so it decodes by
the round trip; an illegal word selects no row, so nothing that follows the header can mend it. -/

namespace Sys2Proof

/-- A packet the encoder writes of a well-formed command decodes to that command. -/
theorem decode_of_eq_encode {pk : Packet} (i : Instr) (hi : i.WellFormed) (h : pk = encode i) : decode pk = .ok i :=
  h ▸ decodingAnEncodedCommandGivesItBack i hi

/-- Each illegal word of section 9 selects no row, for the reason the section gives. -/
theorem decodeOpcode_illegalWords :
    decodeOpcode 0x12000001 = .error .reservedBit ∧ decodeOpcode 0x11010000 = .error .unusedFlag ∧
    decodeOpcode 0x40000000 = .error .reservedUnit ∧ decodeOpcode 0x38100000 = .error .slotNotZero := by
  decide

/-- Settles O7: each legal row is the encoding of its command, and each illegal word is rejected by its header. -/
theorem workedEncodingsDecode : Obligations.WorkedEncodingsDecode := by
  obtain ⟨hreserved, hflag, hunit, hslot⟩ := decodeOpcode_illegalWords
  refine ⟨decode_of_eq_encode (.maskbits 0xB5 2 5) rfl rfl,
    decode_of_eq_encode (.byte2bits 7 8 true) rfl rfl,
    decode_of_eq_encode (.rdNew 0 true [255]) rfl rfl,
    decode_of_eq_encode (.rdNew 1 false [255, 255]) rfl rfl,
    decode_of_eq_encode (.rdBits 0 3) rfl rfl,
    decode_of_eq_encode (.rdAlign 0 true) rfl rfl,
    decode_of_eq_encode (.wrByte 0 7) rfl rfl,
    decode_of_eq_encode (.wrPop 0 3) rfl rfl,
    decode_of_eq_encode (.wrFin 0 false) rfl rfl,
    decode_of_eq_encode (.wrFin 0 true) rfl rfl,
    fun alphabet => decode_of_eq_encode (.cdNew 0 .base32 false alphabet (some [0x3D])) rfl rfl,
    fun alphabet => decode_of_eq_encode (.cdNew 0 .base64 true alphabet none) rfl rfl,
    decode_of_eq_encode (.cdDec 2 [0x6D, 0x79]) rfl rfl,
    decode_of_eq_encode (.enc32 [0x66]) rfl rfl,
    decode_of_eq_encode (.dec64 [0x46, 0x50, 0x75, 0x63, 0x41, 0x77, 0x3D, 0x3D]) rfl rfl,
    fun operands payloads => ?_⟩
  exact ⟨decode_error_of_header hreserved operands payloads, decode_error_of_header hflag operands payloads,
    decode_error_of_header hunit operands payloads, decode_error_of_header hslot operands payloads⟩

end Sys2Proof
end
